-- ==== Sys2Proof/Word.lean ====
section
/-! DEFINITION. The command byte and the type of the capture block's one memory, the edge log.  The widths of the
other registers are parameters (spec 00_scope.md R8), so those registers are numbers kept below `2 ^ width` (log 4). -/

namespace Sys2Proof

/-- A command byte (spec 30_encoding.md R90). -/
abbrev Byte := BitVec 8

/-- The edge log as memory: (slot index, sample) pairs in one canonical form (`Memory.wf`), slot indices strictly
rising and below `LOG_DEPTH`, samples below `2 ^ SAMPLE_W`, no entry equal to what an unlisted slot reads as.  The
smallest unit any operation moves is one whole slot (20_memory.md R62), so a cell is a slot and not a byte.  DESIGN
CHOICE (log 11), safe. -/
abbrev Memory := List (Nat × Nat)

/-- What an unlisted slot reads as: the reset contents of the log, zero (10_state.md R40, `LOG_INIT`). -/
abbrev Memory.unlisted : Nat := 0

end Sys2Proof
end

