-- ==== Sys2Proof/Config.lean ====
section
/-! DEFINITION. The implementation parameters of spec 00_scope.md R8, as one structure of plain data. -/

namespace Sys2Proof

/-- `SAME_INSTANT_ORDER`: which of EDGE and a command step goes first when both fall in one `clk` period
(60_exceptions.md R215). -/
inductive InstantOrder where
  | edgeFirst
  | cmdFirst
deriving DecidableEq, Repr

/-- The seventeen parameters of 00_scope.md R8, each with the spec's default.  They are fixed
at build time; a state carries them in its field `cfg`, which no rule writes (log 3).  The three the spec leaves
OPEN have no default there: their values here are a DESIGN CHOICE (log 3), unsafe for a claim that reads them. -/
structure Config where
  /-- `LOG_DEPTH`: slots in `edge_log`. -/
  logDepth : Nat := 40
  /-- `SAMPLE_W`: width in bits of a sample, of `reference_time`, of `hold_start` and of the clock. -/
  sampleW : Nat := 64
  /-- `FIELD_W`: width of `humidity` and of `temperature`. -/
  fieldW : Nat := 16
  /-- `CNT_W`: width of `edge_counter`, which saturates. -/
  cntW : Nat := 32
  /-- `SKIP`: edges discarded at the start of each trigger cycle. -/
  skip : Nat := 3
  /-- `THRESH_NS`: bit threshold, compared with strict greater-than. -/
  threshNs : Nat := 115000
  /-- `HOLD_NS`: low-hold time. -/
  holdNs : Nat := 1000000
  /-- `CMD_TRIGGER`: the byte `'0'`; its value is ASCII, supplied by the spec (93_implementation_defined.md G1). -/
  cmdTrigger : Byte := 0x30#8
  /-- `CMD_DECODE`: the byte `'1'`; its value is ASCII, supplied by the spec (93_implementation_defined.md G1). -/
  cmdDecode : Byte := 0x31#8
  /-- `LOG_INIT`: contents of the edge log after reset, zero in every slot. -/
  logInit : Memory := []
  /-- `H_COMPLETE` (44_hardening_options.md R191). -/
  hComplete : Bool := false
  /-- `H_CHECKSUM` (44_hardening_options.md R192). -/
  hChecksum : Bool := false
  /-- `H_REJECT_UNTRIGGERED` (44_hardening_options.md R193). -/
  hRejectUntriggered : Bool := false
  /-- `setup_ok`: the line and its interrupt were acquired (60_exceptions.md R224). -/
  setupOk : Bool := true
  /-- `SAME_INSTANT_ORDER`, OPEN in the spec: both orders are admitted. -/
  sameInstantOrder : InstantOrder := .edgeFirst
  /-- `T_CLK` in nanoseconds, OPEN in the spec: no rule reads it, only claims about a clocked hold do. -/
  tClk : Nat := 0
  /-- `CLK_GRAN` in nanoseconds, OPEN in the spec: no rule reads it, only claims about a clocked hold do. -/
  clkGran : Nat := 0
deriving DecidableEq, Repr

/-- The defaults of 00_scope.md R8. -/
def Config.default : Config := {}

end Sys2Proof
end

