-- ==== Sys2Proof/Syntax.lean ====
section
/-! DEFINITION. The operations of the capture block: one constructor per row of spec/opcode_table.json. -/

namespace Sys2Proof

/-- The eight operations (00_scope.md R2).  TRIGGER, DECODE and NOP are command bytes; the other five have no
encoding (30_encoding.md R94). -/
inductive Instr where
  /-- TRIGGER, command byte `CMD_TRIGGER` (40_trigger_sequencer.md R110). -/
  | trigger
  /-- DECODE, command byte `CMD_DECODE` (44_hardening_options.md R197). -/
  | decode
  /-- NOP, any other command byte `b` (43_store_and_controller.md R172). -/
  | nop (b : Byte)
  /-- READ, a sample of the read ports (43_store_and_controller.md R171). -/
  | read
  /-- EDGE, a rising edge of the sensor line; the opaque event token is no argument (41_pulse_capture.md R133,
  30_encoding.md R95). -/
  | edge
  /-- RELEASE, the internal step that ends the low hold (40_trigger_sequencer.md R112). -/
  | release
  /-- ADVANCE, the environment moves the clock forward by `d` nanoseconds, `d >= 0` (41_pulse_capture.md R131). -/
  | advance (d : Nat)
  /-- RESET, the `rst` port (70_reset_and_hazards.md R240). -/
  | reset
deriving DecidableEq, Repr

end Sys2Proof
end

