-- ==== Sys2Proof/WellFormed.lean ====
section
/-! DEFINITION. What makes an instruction, a memory and a configuration well formed. -/

namespace Sys2Proof

/-- The constraint of the opcode table on an operand: NOP's byte is neither `CMD_TRIGGER` nor `CMD_DECODE`
(30_encoding.md R91).  ADVANCE's `d` is any natural number, `d >= 0` (41_pulse_capture.md R131). -/
def Instr.wf (c : Config) : Instr → Bool
  | .nop b => b != c.cmdTrigger && b != c.cmdDecode
  | .trigger => true
  | .decode => true
  | .read => true
  | .edge => true
  | .release => true
  | .advance _ => true
  | .reset => true

/-- The canonical form, from slot index `lo` on, of a log with `depth` slots of `width` bits: strictly rising
indices, each a slot of the log, each sample in its width, no entry equal to what an unlisted slot reads as. -/
def Memory.wfFrom (depth width : Nat) : Nat → Memory → Bool
  | _, [] => true
  | lo, (a, v) :: m =>
    decide (lo ≤ a) && decide (a < depth) && decide (v < 2 ^ width) && (v != Memory.unlisted)
      && Memory.wfFrom depth width (a + 1) m

/-- The canonical form of the edge log under a configuration, so that equal logs are equal data. -/
def Memory.wf (c : Config) (m : Memory) : Bool := Memory.wfFrom c.logDepth c.sampleW 0 m

/-- A usable configuration: the two command bytes differ; `LOG_INIT` is a log in canonical form; the counter can pass
the log's window, so that its saturation ceiling is unobservable (41_pulse_capture.md R136: "any ceiling of 43 or
more"); the two fields and the checksum byte have their slots in the log (20_memory.md R61); and the two times that
are compared with clock differences are of that width. -/
def Config.wf (c : Config) : Bool :=
  (c.cmdTrigger != c.cmdDecode) && c.logInit.wf c && decide (c.skip + c.logDepth < 2 ^ c.cntW)
    && decide (2 * c.fieldW + 8 ≤ c.logDepth) && decide (c.threshNs < 2 ^ c.sampleW)
    && decide (c.holdNs < 2 ^ c.sampleW)

end Sys2Proof
end

