-- ==== Sys2Proof/Machine/State.lean ====
section
/-! DEFINITION. The state of the capture block: every register of spec 10_state.md R20, the edge detector of
41_pulse_capture.md R139, the parameters, the command port, and the model's own record of inputs and outputs. -/

namespace Sys2Proof.Machine

/-- Why the machine stops. -/
inductive Fault where
  /-- Raised by `State.fetch` when `setup_ok` is false: "the block offers no step" (60_exceptions.md R224,
  92_eei_decisions.md D24, 93_implementation_defined.md U13 "stuck for every agent").  Safe: it stops where the
  spec lets no claim speak (log 1). -/
  | setupFailed
deriving DecidableEq, Repr

/-- Why an instruction has no meaning. -/
inductive Refusal where
  /-- Raised only by a refused arm of `exec`; no arm of this model is one.  Safe. -/
  | notModelled (mnemonic : String)
deriving DecidableEq, Repr

/-- `ctrl_state` (10_state.md R26). -/
inductive CtrlState where
  | idle
  | triggered
deriving DecidableEq, Repr

/-- `seq_phase` (10_state.md R27). -/
inductive SeqPhase where
  | ready
  | hold
deriving DecidableEq, Repr

/-- `pin_dir` (10_state.md R29): `input`, the block does not drive; `output`, it drives the line low. -/
inductive PinDir where
  | input
  | output
deriving DecidableEq, Repr

/-- `dec_status` (10_state.md R32, 44_hardening_options.md R194). -/
inductive DecStatus where
  | ok
  | incomplete
  | checksumFail
  | rejected
deriving DecidableEq, Repr

/-- The ReadingStore, the pair `reading` (10_state.md R25, 43_store_and_controller.md R170). -/
structure Reading where
  /-- `reading.humidity`, `FIELD_W` bits. -/
  humidity : Nat
  /-- `reading.temperature`, `FIELD_W` bits. -/
  temperature : Nat
deriving DecidableEq, Repr

/-- The edge detector of an implementation with a `clk`: a two-stage synchroniser and the previous synchronised
sample (41_pulse_capture.md R139, 10_state.md R37 (b)); `true` is a high level. -/
structure EdgeDetector where
  stage1 : Bool
  stage2 : Bool
  previous : Bool
deriving DecidableEq, Repr

/-- The inputs the block samples in one `clk` period beside the command port and the clock (10_state.md R38). -/
structure Pins where
  rst : Bool
  lineI : Bool
deriving DecidableEq, Repr

/-- Which agent moves next (60_exceptions.md R220), and with what. -/
inductive Turn where
  /-- The command context looks at the byte on the command port (43_store_and_controller.md R175). -/
  | command
  /-- The host samples the read ports. -/
  | read
  /-- The environment offers a rising edge (41_pulse_capture.md R132). -/
  | edge
  /-- The command context makes its internal step, if it is enabled. -/
  | release
  /-- The environment moves the clock. -/
  | advance (d : Nat)
  /-- The `rst` port, at rule level. -/
  | reset
  /-- The host presents a byte on the command port (10_state.md R39). -/
  | present (b : Byte)
  /-- One period of `clk` of a clocked implementation, which decides what rules fire in it. -/
  | period (p : Pins)
deriving DecidableEq, Repr

/-- What an operation answers to the host: READ's pair (43_store_and_controller.md R171), DECODE's
`(OK, h, m)` or `(st)` (44_hardening_options.md R197). -/
inductive HostResult where
  | reading (r : Reading)
  | decoded (st : DecStatus) (r : Option Reading)
deriving DecidableEq, Repr

/-- The whole state.  A register whose width is a parameter is a number below `2 ^ width`, which every operation
keeps (`State.WidthsFit`; log 4). -/
structure State where
  /-- The build-time parameters (00_scope.md R8); no rule writes them (log 3). -/
  cfg : Config
  /-- `edge_log`, `LOG_DEPTH` slots of `SAMPLE_W` bits (10_state.md R21). -/
  edgeLog : Memory
  /-- `edge_counter`, `CNT_W` bits (10_state.md R22). -/
  edgeCounter : Nat
  /-- `reference_time`, `SAMPLE_W` bits (10_state.md R23). -/
  referenceTime : Nat
  /-- `reading` (10_state.md R25). -/
  reading : Reading
  /-- `ctrl_state` (10_state.md R26). -/
  ctrlState : CtrlState
  /-- `seq_phase` (10_state.md R27). -/
  seqPhase : SeqPhase
  /-- `hold_start`, `SAMPLE_W` bits (10_state.md R28). -/
  holdStart : Nat
  /-- `pin_dir` (10_state.md R29). -/
  pinDir : PinDir
  /-- `triggered_once` (10_state.md R32). -/
  triggeredOnce : Bool
  /-- `dec_status` (10_state.md R32). -/
  decStatus : DecStatus
  /-- `clock`, the environment's register, `SAMPLE_W` bits (10_state.md R30). -/
  clock : Nat
  /-- The edge detector's hidden registers (41_pulse_capture.md R139). -/
  detector : EdgeDetector
  /-- The bytes the host presents, the head on `cmd_byte_i`; `cmd_valid_i = 1` while there is one (10_state.md R38,
  R39; log 8). -/
  cmdPort : List Byte
  /-- The model's own: the turns to come, the next one first (log 5). -/
  agenda : List Turn
  /-- The model's own: the results the host has got, oldest first (70_reset_and_hazards.md R254; log 7). -/
  results : List HostResult
deriving DecidableEq, Repr

/-- The machine right after reset (10_state.md R40; the detector: 41_pulse_capture.md R139), with the default
parameters, nothing presented and nothing on the agenda.  `clock` is "unspecified: any 64-bit value" there: 0 is a
DESIGN CHOICE (log 2), unsafe for a claim that reads it. -/
def State.reset : State where
  cfg := Config.default
  edgeLog := []
  edgeCounter := 0
  referenceTime := 0
  reading := ⟨0, 0⟩
  ctrlState := .idle
  seqPhase := .ready
  holdStart := 0
  pinDir := .input
  triggeredOnce := false
  decStatus := .ok
  clock := 0
  detector := ⟨true, true, true⟩
  cmdPort := []
  agenda := []
  results := []

end Sys2Proof.Machine
end

