-- ==== Sys2Proof/Machine/Ops.lean ====
section
/-! DEFINITION. The named operations over the edge log and the registers: the writes of each rule, each taken as one
whole (spec 20_memory.md R66, R67). -/

namespace Sys2Proof

/-- The sample in slot `i` (00_scope.md R10 `MemRead(i, 8)`). -/
def Memory.read : Memory → Nat → Nat
  | [], _ => Memory.unlisted
  | (a, v) :: m, i => if a = i then v else Memory.read m i

/-- The log without an entry for slot `i`, which then reads as an unlisted slot does. -/
def Memory.drop (m : Memory) (i : Nat) : Memory := m.filter fun c => c.1 != i

/-- The log with an entry for slot `i` put before the first entry of a slot that is not lower. -/
def Memory.place : Memory → Nat → Nat → Memory
  | [], i, v => [(i, v)]
  | (a, w) :: m, i, v =>
    if a < i then (a, w) :: Memory.place m i v else (i, v) :: (a, w) :: m

/-- The log with `v` in slot `i` (00_scope.md R10 `MemWrite(i, 8, v)`), in canonical form: writing what an unlisted
slot reads as removes the entry. -/
def Memory.write (m : Memory) (i v : Nat) : Memory :=
  if v = Memory.unlisted then m.drop i else (m.drop i).place i v

/-- `sat_inc_w` (00_scope.md R10, 41_pulse_capture.md R136). -/
def satInc (w v : Nat) : Nat := if v < 2 ^ w - 1 then v + 1 else v

/-- `(a - b) mod 2^w`, the exact difference narrowed to `w` bits (00_scope.md R10, 41_pulse_capture.md R141). -/
def subMod (w a b : Nat) : Nat := (((a : Int) - b) % ((2 ^ w : Nat) : Int)).toNat

namespace Machine

/-- `now()`: the current `clock`, with no side effect (41_pulse_capture.md R130). -/
def State.now (s : State) : Nat := s.clock

/-- `cmd_ready_o`: a command byte is accepted only with `seq_phase = READY` (30_encoding.md R97). -/
def State.cmdReady (s : State) : Bool := decide (s.seqPhase = .ready)

/-- The time since the hold began, `(now() - hold_start)` modulo `2 ^ SAMPLE_W` (40_trigger_sequencer.md R112). -/
def State.heldFor (s : State) : Nat := subMod s.cfg.sampleW s.now s.holdStart

/-- RELEASE's enabling condition (40_trigger_sequencer.md R112). -/
def State.releaseEnabled (s : State) : Bool :=
  decide (s.seqPhase = .hold) && decide (s.cfg.holdNs ≤ s.heldFor)

/-- The slot the next edge is stored in: `edge_counter - SKIP` inside the window, none outside it.  The test is on
the mathematical value (20_memory.md R63; `3 <= edge_counter <= 42` in 41_pulse_capture.md R133). -/
def State.edgeSlot (s : State) : Option Nat :=
  if s.cfg.skip ≤ s.edgeCounter ∧ s.edgeCounter - s.cfg.skip < s.cfg.logDepth then
    some (s.edgeCounter - s.cfg.skip)
  else none

/-- EDGE's `delta = (now() - reference_time)` modulo `2 ^ SAMPLE_W` (41_pulse_capture.md R133). -/
def State.delta (s : State) : Nat := subMod s.cfg.sampleW s.now s.referenceTime

/-- A rule whose enabling condition does not hold does not fire: nothing changes (00_scope.md R11; a command byte
"is not consumed and not lost, it waits", 10_state.md R39).  DESIGN CHOICE (log 6), safe. -/
def fire (enabled : Bool) (s after : State) : Host.Outcome State Fault Refusal :=
  .next (if enabled then after else s)

/-- TRIGGER's writes (40_trigger_sequencer.md R110); one sample of the clock. -/
def State.arm (s : State) : State :=
  { s with
    edgeCounter := 0
    referenceTime := s.now
    holdStart := s.now
    pinDir := .output
    seqPhase := .hold
    ctrlState := .triggered
    triggeredOnce := true }

/-- RELEASE's writes (40_trigger_sequencer.md R112). -/
def State.letGo (s : State) : State :=
  { s with pinDir := .input, seqPhase := .ready }

/-- The log after an edge (41_pulse_capture.md R133): the delta in the window's slot, or unchanged outside the
window. -/
def State.logAfterEdge (s : State) : Memory :=
  match s.edgeSlot with
  | some i => s.edgeLog.write i s.delta
  | none => s.edgeLog

/-- Taking the edge interrupt, the block's only one (60_exceptions.md R213).  Entry saves nothing and switches
nothing, there is no return (R216, R217), so this is the whole of it: EDGE's writes (41_pulse_capture.md R133). -/
def State.capture (s : State) : State :=
  { s with
    edgeLog := s.logAfterEdge
    referenceTime := s.now
    edgeCounter := satInc s.cfg.cntW s.edgeCounter }

/-- ADVANCE's write, modulo `2 ^ SAMPLE_W` (41_pulse_capture.md R131). -/
def State.tick (s : State) (d : Nat) : State :=
  { s with clock := (s.clock + d) % 2 ^ s.cfg.sampleW }

/-- An operation's result reaches the host (70_reset_and_hazards.md R254). -/
def State.answer (s : State) (r : HostResult) : State :=
  { s with results := s.results ++ [r] }

/-- DECODE's writes for status `st` and decoded pair `r`: the pair only when the status is OK, the controller and the
status always (44_hardening_options.md R196, R197). -/
def State.conclude (s : State) (st : DecStatus) (r : Reading) : State :=
  { s with
    reading := if st = .ok then r else s.reading
    ctrlState := .idle
    decStatus := st }

/-- DECODE's result: `(OK, h, m)` if the status is OK, else `(st)` (44_hardening_options.md R197). -/
def decodeResult (st : DecStatus) (r : Reading) : HostResult :=
  .decoded st (if st = .ok then some r else none)

/-- RESET's writes: every register of the block to its value in 10_state.md R40, the edge detector to ones
(41_pulse_capture.md R139).  The clock is not written, nor what is not the block's: the parameters, the byte
presented, the turns to come, the results the host already has. -/
def State.restart (s : State) : State :=
  { s with
    edgeLog := s.cfg.logInit
    edgeCounter := 0
    referenceTime := 0
    reading := ⟨0, 0⟩
    ctrlState := .idle
    seqPhase := .ready
    holdStart := 0
    pinDir := .input
    triggeredOnce := false
    decStatus := .ok
    detector := ⟨true, true, true⟩ }

end Machine
end Sys2Proof
end

