-- ==== Sys2Proof/Machine/Capture.lean ====
section
/-! DEFINITION. The edge clock and the pulse capture handler (spec 41_pulse_capture.md): ADVANCE and EDGE. -/

namespace Sys2Proof.Machine

/-- ADVANCE (41_pulse_capture.md R131), enabled always. -/
def execAdvance (d : Nat) (s : State) : Host.Outcome State Fault Refusal :=
  fire true s (s.tick d)

/-- EDGE (41_pulse_capture.md R133), enabled in every state (R132). -/
def execEdge (s : State) : Host.Outcome State Fault Refusal :=
  fire true s s.capture

end Sys2Proof.Machine
end

