-- ==== Sys2Proof/Machine/Controller.lean ====
section
/-! DEFINITION. The reading store, the command that does nothing, and reset (spec 43_store_and_controller.md,
70_reset_and_hazards.md): READ, NOP and RESET. -/

namespace Sys2Proof.Machine

/-- READ (43_store_and_controller.md R171), enabled always: the pair is answered, no register is written. -/
def execRead (s : State) : Host.Outcome State Fault Refusal :=
  fire true s (s.answer (.reading s.reading))

/-- NOP (43_store_and_controller.md R172), in READY only: no write.  The byte it was given is consumed where a
command byte is accepted (`State.fetch`). -/
def execNop (_b : Byte) (s : State) : Host.Outcome State Fault Refusal :=
  fire s.cmdReady s s

/-- RESET (70_reset_and_hazards.md R240), enabled always. -/
def execReset (s : State) : Host.Outcome State Fault Refusal :=
  fire true s s.restart

end Sys2Proof.Machine
end

