-- ==== Sys2Proof/Machine/Operands.lean ====
section
/-! DEFINITION. DECODE's input: the thresholded bits of the edge log and the fields packed from them (spec
42_bit_decoder.md R151, R152; 20_memory.md R61).  No command has an operand of its own (30_encoding.md R90).
With `FIELD_W = 16` the groups are the spec's slots 0 to 15, 16 to 31 and 32 to 39; for another `FIELD_W` they follow
each other in the same order (log 4). -/

namespace Sys2Proof.Machine

/-- `bit[i]`: 1 when the sample in slot `i` is strictly greater than the threshold, unsigned (42_bit_decoder.md
R151). -/
def State.bit (s : State) (i : Nat) : Bool := decide (s.cfg.threshNs < s.edgeLog.read i)

/-- Bits put together most significant first, as a number (42_bit_decoder.md R152). -/
def packMsbFirst (bits : List Bool) : Nat :=
  bits.foldl (fun acc b => 2 * acc + b.toNat) 0

/-- The bits of `n` slots from `first` on, in the order the sensor sent them. -/
def State.bitsFrom (s : State) (first n : Nat) : List Bool :=
  (List.range n).map fun k => s.bit (first + k)

/-- `h`, the first `FIELD_W` slots (42_bit_decoder.md R152). -/
def State.decodedHumidity (s : State) : Nat := packMsbFirst (s.bitsFrom 0 s.cfg.fieldW)

/-- `m`, the next `FIELD_W` slots (42_bit_decoder.md R152). -/
def State.decodedTemperature (s : State) : Nat := packMsbFirst (s.bitsFrom s.cfg.fieldW s.cfg.fieldW)

/-- `c`, the eight slots after the two fields, most significant first by decision D23 (44_hardening_options.md
R192). -/
def State.decodedChecksum (s : State) : Nat := packMsbFirst (s.bitsFrom (2 * s.cfg.fieldW) 8)

/-- The pair `(h, m)`. -/
def State.decodedReading (s : State) : Reading :=
  ⟨s.decodedHumidity, s.decodedTemperature⟩

/-- `v[15:8] + v[7:0]`, the two bytes that 44_hardening_options.md R192 takes of a field. -/
def byteSum (v : Nat) : Nat := v / 2 ^ 8 % 2 ^ 8 + v % 2 ^ 8

/-- `s`, the sum of the four bytes of `h` and `m` modulo 256 (44_hardening_options.md R192). -/
def checksumOf (r : Reading) : Nat := (byteSum r.humidity + byteSum r.temperature) % 256

end Sys2Proof.Machine
end

