-- ==== Sys2Proof/Machine/Flags.lean ====
section
/-! DEFINITION. The block has no condition codes (spec 10_state.md R35); its only status values are here: the derived
`capture_complete` and the status of a DECODE. -/

namespace Sys2Proof.Machine

/-- `capture_complete`, `edge_counter >= SKIP + LOG_DEPTH` (43 by default; 10_state.md R24). -/
def State.captureComplete (s : State) : Bool :=
  decide (s.cfg.skip + s.cfg.logDepth ≤ s.edgeCounter)

/-- The status of a DECODE, one status in the order REJECTED, INCOMPLETE, CHECKSUM_FAIL (44_hardening_options.md
R195, R197). -/
def State.decodeStatus (s : State) : DecStatus :=
  if s.cfg.hRejectUntriggered && !s.triggeredOnce then .rejected
  else if s.cfg.hComplete && !s.captureComplete then .incomplete
  else if s.cfg.hChecksum && checksumOf s.decodedReading != s.decodedChecksum then .checksumFail
  else .ok

/-- The two-bit code of a status (44_hardening_options.md R194). -/
def DecStatus.code : DecStatus → BitVec 2
  | .ok => 0#2
  | .incomplete => 1#2
  | .checksumFail => 2#2
  | .rejected => 3#2

/-- The one-bit encoding of the controller state (10_state.md R26). -/
def CtrlState.code : CtrlState → BitVec 1
  | .idle => 0#1
  | .triggered => 1#1

/-- The one-bit encoding of the sequencer's phase (10_state.md R27). -/
def SeqPhase.code : SeqPhase → BitVec 1
  | .ready => 0#1
  | .hold => 1#1

/-- The one-bit encoding of the pin's direction (10_state.md R29). -/
def PinDir.code : PinDir → BitVec 1
  | .input => 0#1
  | .output => 1#1

end Sys2Proof.Machine
end

