-- ==== Sys2Proof/Machine/Decoder.lean ====
section
/-! DEFINITION. The bit decoder with its hardening options (spec 42_bit_decoder.md, 44_hardening_options.md): DECODE. -/

namespace Sys2Proof.Machine

/-- DECODE in full (44_hardening_options.md R197; with every option false it is 42_bit_decoder.md R150), accepted in
either controller state, in READY only (30_encoding.md R97). -/
def execDecode (s : State) : Host.Outcome State Fault Refusal :=
  fire s.cmdReady s
    ((s.conclude s.decodeStatus s.decodedReading).answer (decodeResult s.decodeStatus s.decodedReading))

end Sys2Proof.Machine
end

