-- ==== Sys2Proof/Machine/Sequencer.lean ====
section
/-! DEFINITION. The trigger sequencer (spec 40_trigger_sequencer.md): TRIGGER and RELEASE. -/

namespace Sys2Proof.Machine

/-- TRIGGER (40_trigger_sequencer.md R110), accepted in either controller state (R116), in READY only
(30_encoding.md R97). -/
def execTrigger (s : State) : Host.Outcome State Fault Refusal :=
  fire s.cmdReady s s.arm

/-- RELEASE (40_trigger_sequencer.md R112). -/
def execRelease (s : State) : Host.Outcome State Fault Refusal :=
  fire s.releaseEnabled s s.letGo

end Sys2Proof.Machine
end

