-- ==== Sys2Proof/Machine/Dispatch.lean ====
section
/-! DEFINITION. One arm per operation. -/

namespace Sys2Proof.Machine

def exec (i : Instr) (s : State) : Host.Outcome State Fault Refusal :=
  match i with
  | .trigger => Sys2Proof.Machine.execTrigger s
  | .decode => Sys2Proof.Machine.execDecode s
  | .nop b => Sys2Proof.Machine.execNop b s
  | .read => Sys2Proof.Machine.execRead s
  | .edge => Sys2Proof.Machine.execEdge s
  | .release => Sys2Proof.Machine.execRelease s
  | .advance d => Sys2Proof.Machine.execAdvance d s
  | .reset => Sys2Proof.Machine.execReset s

end Sys2Proof.Machine
end

