-- ==== Sys2Proof/Decode.lean ====
section
/-! DEFINITION. The command decoder and encoder of spec 30_encoding.md. -/

namespace Sys2Proof

/-- Why a string of bytes holds no command. -/
inductive DecodeError where
  /-- No byte is presented (`cmd_valid_i = 0`).  No byte value is rejected: "there is no illegal command"
  (30_encoding.md R92). -/
  | noByte
deriving DecidableEq, Repr

/-- The decoder of 30_encoding.md R91: "if op = 0x30 then TRIGGER else if op = 0x31 then DECODE else NOP". -/
def decodeByte (c : Config) (op : Byte) : Instr :=
  if op = c.cmdTrigger then .trigger
  else if op = c.cmdDecode then .decode
  else .nop op

/-- Decodes the first command of a string of presented bytes and gives the rest back: every command is one byte
(30_encoding.md R90, R98). -/
def decode (c : Config) : List Byte → Except DecodeError (Instr × List Byte)
  | [] => .error .noByte
  | op :: rest => .ok (decodeByte c op, rest)

/-- The bytes of an instruction, from the same table (30_encoding.md R91); the five operations of R94 have no
encoding. -/
def encode (c : Config) : Instr → Option (List Byte)
  | .trigger => some [c.cmdTrigger]
  | .decode => some [c.cmdDecode]
  | .nop b => some [b]
  | .read => none
  | .edge => none
  | .release => none
  | .advance _ => none
  | .reset => none

/-- The instruction bytes of a table word: bits 7..0 are the one byte a command has; a row to which the table gives
no bits (an operation with no encoding) has no byte. -/
def tableBytes (nbits w : Nat) : List Byte :=
  if nbits = 0 then [] else [BitVec.ofNat 8 (w % 2 ^ nbits)]

/-- What this decoder reads from a table word under the spec's default parameters. -/
def decodeTableWord (nbits w : Nat) : Option Instr :=
  match decode Config.default (tableBytes nbits w) with
  | .ok (i, _) => some i
  | .error _ => none

end Sys2Proof
end

