-- ==== Sys2Proof/Machine/Ports.lean ====
section
/-! DEFINITION. The ports (spec 10_state.md R38, 20_memory.md R65) and the `clk` period of a clocked implementation
(41_pulse_capture.md R139, 60_exceptions.md R215, 40_trigger_sequencer.md R112, 70_reset_and_hazards.md R240). -/

namespace Sys2Proof.Machine

/-- `line_oe_o`: equals `pin_dir`. -/
def State.lineOe (s : State) : Bool := decide (s.pinDir = .output)

/-- `line_o`: tied to 0, the block never drives high (10_state.md R29). -/
def State.lineO (_s : State) : Bool := false

/-- `cmd_valid_i`: the host presents a command byte. -/
def State.cmdValid (s : State) : Bool := !s.cmdPort.isEmpty

/-- `rd_humidity_o`. -/
def State.rdHumidity (s : State) : Nat := s.reading.humidity

/-- `rd_temperature_o`. -/
def State.rdTemperature (s : State) : Nat := s.reading.temperature

/-- `dec_status_o`. -/
def State.decStatusO (s : State) : BitVec 2 := s.decStatus.code

/-- `ctrl_state_o`. -/
def State.ctrlStateO (s : State) : BitVec 1 := s.ctrlState.code

/-- `capture_complete_o`. -/
def State.captureCompleteO (s : State) : Bool := s.captureComplete

/-- A Reading of `w`-bit fields as one word, `humidity ‖ temperature`: with `w = 16` humidity in bits 31 to 16
(20_memory.md R65).  DESIGN CHOICE (log 17): for another `w`, of which R65 says nothing, the same concatenation. -/
def Reading.word (w : Nat) (r : Reading) : Nat := r.humidity * 2 ^ w + r.temperature

/-- The Reading as bytes, that word most significant byte first: with `w = 16` four bytes (20_memory.md R65).  DESIGN
CHOICE (log 17): for another `w`, of which R65 says nothing, as many bytes as the word's `2 * w` bits need, the first
filled up with zero bits at its top. -/
def Reading.bytes (w : Nat) (r : Reading) : List Byte :=
  (List.range ((2 * w + 7) / 8)).reverse.map fun k => BitVec.ofNat 8 (r.word w / 2 ^ (8 * k))

/-- A rising edge is raised in a period in which the previous synchronised sample is 0 and the current one is 1
(41_pulse_capture.md R139). -/
def EdgeDetector.rising (e : EdgeDetector) : Bool := !e.previous && e.stage2

/-- The detector's registers at the end of a period that samples the level `line` (41_pulse_capture.md R139). -/
def EdgeDetector.sample (e : EdgeDetector) (line : Bool) : EdgeDetector :=
  { stage1 := line, stage2 := e.stage1, previous := e.stage2 }

/-- The command context's rule in a `clk` period: RELEASE in the first period in which its condition holds
(40_trigger_sequencer.md R112), else the byte at the port where `cmd_valid_i` and `cmd_ready_o` are both 1
(10_state.md R38). -/
def State.commandTurns (s : State) : List Turn :=
  if s.releaseEnabled then [.release]
  else if s.cmdValid && s.cmdReady then [.command]
  else []

/-- The edge context's rule in a `clk` period. -/
def State.edgeTurns (s : State) : List Turn :=
  if s.detector.rising then [.edge] else []

/-- The rules of one `clk` period, "two whole rules one after the other" in the order `SAME_INSTANT_ORDER`
(60_exceptions.md R215); with `rst = 1` RESET alone (70_reset_and_hazards.md R240). -/
def State.periodTurns (s : State) (p : Pins) : List Turn :=
  if p.rst then [.reset]
  else match s.cfg.sameInstantOrder with
    | .edgeFirst => s.edgeTurns ++ s.commandTurns
    | .cmdFirst => s.commandTurns ++ s.edgeTurns

/-- One `clk` period: the detector samples the line, and the period's rules are the next turns.  In a period with
`rst = 1` the detector is left to RESET (log 10). -/
def State.runPeriod (s : State) (p : Pins) : State :=
  { s with
    detector := if p.rst then s.detector else s.detector.sample p.lineI
    agenda := s.periodTurns p ++ s.agenda }

/-- The host presents one more byte (10_state.md R39: it waits until it is accepted). -/
def State.present (s : State) (b : Byte) : State :=
  { s with cmdPort := s.cmdPort ++ [b] }

end Sys2Proof.Machine
end

