-- ==== Sys2Proof/Machine/Fetch.lean ====
section
/-! DEFINITION. Which rule the next step fires.  There is no instruction fetch (spec 20_memory.md R73): a command byte
is presented on the command port and consumed in the step that accepts it (30_encoding.md R97), and the other
operations come from their agents (30_encoding.md R94, 60_exceptions.md R220). -/

namespace Sys2Proof.Machine

/-- What the next step does. -/
inductive Fetched where
  /-- Fires the rule of `i` from the state `s`, in which the turn, and the byte if one is accepted, are spent. -/
  | rule (i : Instr) (s : State)
  /-- Fires no rule: the ports or nothing at all move. -/
  | wiring (s : State)
  /-- Offers no step. -/
  | stuck (f : Fault)

/-- The turn the block takes when the environment offers nothing more: its internal step if enabled, else the byte
that waits if it is ready, else none (70_reset_and_hazards.md R255: an enabled RELEASE and a presented byte are not
postponed for ever; R226: "between steps the block simply holds its registers").  DESIGN CHOICE (log 5). -/
def State.ownTurn (s : State) : Option Turn :=
  if s.releaseEnabled then some .release
  else if s.cmdValid && s.cmdReady then some .command
  else none

/-- The command context's move: the byte at the port selects the rule (43_store_and_controller.md R175) and is
consumed exactly if it is accepted; else it waits (10_state.md R39). -/
def State.fetchCommand (s : State) : Fetched :=
  match decode s.cfg s.cmdPort with
  | .error _ => .wiring s
  | .ok (i, rest) => .rule i (if s.cmdReady then { s with cmdPort := rest } else s)

/-- What a turn does. -/
def State.fetchTurn (s : State) : Turn → Fetched
  | .command => s.fetchCommand
  | .read => .rule .read s
  | .edge => .rule .edge s
  | .release => .rule .release s
  | .advance d => .rule (.advance d) s
  | .reset => .rule .reset s
  | .present b => .wiring (s.present b)
  | .period p => .wiring (s.runPeriod p)

/-- What the next step does: nothing at all without setup (60_exceptions.md R224), else the first turn of the
agenda, else the block's own turn. -/
def State.fetch (s : State) : Fetched :=
  if s.cfg.setupOk then
    match s.agenda with
    | t :: rest => State.fetchTurn { s with agenda := rest } t
    | [] =>
      match s.ownTurn with
      | some t => s.fetchTurn t
      | none => .wiring s
  else .stuck .setupFailed

/-- `s` with the bytes of a table word on the command port, before any byte that waits there, and the command
context's turn next (log 9). -/
def State.placeWord (s : State) (nbits w : Nat) : State :=
  { s with
    cmdPort := tableBytes nbits w ++ s.cmdPort
    agenda := .command :: s.agenda }

end Sys2Proof.Machine
end

