-- ==== Sys2Proof/Machine/Step.lean ====
section
/-! DEFINITION. One step: one firing of one rule (spec 00_scope.md R11, 20_memory.md R67), or a move of the ports. -/

namespace Sys2Proof.Machine

/-- One step of the block. -/
def step (s : State) : Host.Outcome State Fault Refusal :=
  match s.fetch with
  | .rule i s' => exec i s'
  | .wiring s' => .next s'
  | .stuck f => .fault f

/-- `s` with a table word's instruction as the one the next step runs (log 9). -/
def State.withFetchWord (s : State) (nbits w : Nat) : State :=
  s.placeWord nbits w

end Sys2Proof.Machine
end

