-- ==== Sys2Proof/Safety.lean ====
section
/-! DEFINITION. The terms claims are made in: the invariants, the named premises of spec 70_reset_and_hazards.md R252,
sequences of rules and the times of their edges, and the end of a run (R254). -/

namespace Sys2Proof

/-- Every hardening option is off: the baseline (44_hardening_options.md). -/
def Config.baseline (c : Config) : Prop :=
  c.hComplete = false ∧ c.hChecksum = false ∧ c.hRejectUntriggered = false

/-- A command byte selects the operation (30_encoding.md R91). -/
def Instr.isCommand : Instr → Bool
  | .trigger => true
  | .decode => true
  | .nop _ => true
  | .read => false
  | .edge => false
  | .release => false
  | .advance _ => false
  | .reset => false

namespace Machine

/-- The edge log and `LOG_INIT` are in canonical form. -/
def State.LogCanonical (s : State) : Prop :=
  Memory.wf s.cfg s.edgeLog = true ∧ Memory.wf s.cfg s.cfg.logInit = true

/-- Every register is a number of its width (10_state.md R20, 00_scope.md R8). -/
def State.WidthsFit (s : State) : Prop :=
  s.edgeCounter < 2 ^ s.cfg.cntW
    ∧ s.referenceTime < 2 ^ s.cfg.sampleW ∧ s.holdStart < 2 ^ s.cfg.sampleW ∧ s.clock < 2 ^ s.cfg.sampleW
    ∧ s.reading.humidity < 2 ^ s.cfg.fieldW ∧ s.reading.temperature < 2 ^ s.cfg.fieldW

/-- The control registers agree: the line is driven exactly in the hold (10_state.md R29), a hold belongs to a
trigger cycle, and a trigger cycle to a TRIGGER since reset (10_state.md R26, R32). -/
def State.ControlCoherent (s : State) : Prop :=
  (s.pinDir = .output ↔ s.seqPhase = .hold)
    ∧ (s.seqPhase = .hold → s.ctrlState = .triggered)
    ∧ (s.ctrlState = .triggered → s.triggeredOnce = true)

/-- No timestamp is later than the clock (41_pulse_capture.md R141 (a)). -/
def State.TimestampsPast (s : State) : Prop :=
  s.referenceTime ≤ s.clock ∧ s.holdStart ≤ s.clock

/-- The rules of a list fire one after the other (00_scope.md R11). -/
def runRules : List Instr → State → Host.Outcome State Fault Refusal
  | [], s => .next s
  | i :: is, s =>
    match exec i s with
    | .next t => runRules is t
    | .fault f => .fault f
    | .refused r => .refused r

/-- The values of a `w`-bit clock at which the EDGE rules of a list fire, when the clock stands at `c` before it: only
ADVANCE moves the clock (41_pulse_capture.md R131). -/
def edgeTimes (w : Nat) : List Instr → Nat → List Nat
  | [], _ => []
  | .edge :: is, c => c :: edgeTimes w is c
  | .advance d :: is, c => edgeTimes w is ((c + d) % 2 ^ w)
  | .trigger :: is, c => edgeTimes w is c
  | .decode :: is, c => edgeTimes w is c
  | .nop _ :: is, c => edgeTimes w is c
  | .read :: is, c => edgeTimes w is c
  | .release :: is, c => edgeTimes w is c
  | .reset :: is, c => edgeTimes w is c

/-- A list stays inside one trigger cycle: neither TRIGGER nor RESET is in it (41_pulse_capture.md R138). -/
def withinCycle (is : List Instr) : Bool :=
  is.all fun i => decide (i ≠ .trigger) && decide (i ≠ .reset)

/-- `SETUP_OK` (70_reset_and_hazards.md R252). -/
def SetupOk (s : State) : Prop := s.cfg.setupOk = true

/-- `CLK_NOWRAP`: an ADVANCE keeps `clock + d < 2 ^ SAMPLE_W` (R252). -/
def ClkNoWrap (i : Instr) (s : State) : Prop := ∀ d, i = .advance d → s.clock + d < 2 ^ s.cfg.sampleW

/-- `ENV_NO_EDGE_WHILE_DRIVEN`: no EDGE in a state with `pin_dir = OUT` (R252). -/
def EnvNoEdgeWhileDriven (i : Instr) (s : State) : Prop := i = .edge → s.pinDir = .input

/-- `HOST_WAITS`: DECODE only in a state with `edge_counter >= 43` (R252). -/
def HostWaits (i : Instr) (s : State) : Prop := i = .decode → s.captureComplete = true

/-- `HOST_NO_RETRIGGER`: TRIGGER only in a state with `edge_counter >= 43` or with no TRIGGER since reset (R252). -/
def HostNoRetrigger (i : Instr) (s : State) : Prop :=
  i = .trigger → s.captureComplete = true ∨ s.triggeredOnce = false

/-- `CLEAN_LAUNCH`: the run starts from the reset state of 10_state.md R40 (R252), with any parameters and any
clock, and with whatever bytes and turns come. -/
def CleanLaunch (s : State) : Prop :=
  s.clock < 2 ^ s.cfg.sampleW ∧ s = { State.reset with
        cfg := s.cfg
        edgeLog := s.cfg.logInit
        clock := s.clock
        cmdPort := s.cmdPort
        agenda := s.agenda }

/-- A premise about a rule and the state it fires from holds of every rule of a list that fires from `s`. -/
def alongRun (P : Instr → State → Prop) : List Instr → State → Prop
  | [], _ => True
  | i :: is, s =>
    P i s ∧
      match exec i s with
      | .next t => alongRun P is t
      | .fault _ => True
      | .refused _ => True

/-- A rule writes no slot of the two fields, "no EDGE step that writes a slot in 0 to 31" (42_bit_decoder.md R156), and
is not RESET, which writes the whole log. -/
def WritesNoFieldSlot (i : Instr) (s : State) : Prop :=
  i ≠ .reset
    ∧ (i = .edge → s.edgeCounter < s.cfg.skip ∨ s.cfg.skip + 2 * s.cfg.fieldW ≤ s.edgeCounter)

/-- Every level of a line that ends within a list of samples, one a period, has lasted at least two periods; `level` has
lasted `n` so far.  The last level has no end there and may be one sample long (DESIGN CHOICE, log 18). -/
def spacedFrom (level : Bool) (n : Nat) : List Bool → Bool
  | [] => true
  | l :: ls =>
    if l = level then spacedFrom level (n + 1) ls
    else decide (2 ≤ n) && spacedFrom l 1 ls

/-- `ENV_EDGE_SPACING`: each level of the line lasts at least two `clk` periods (R252, 41_pulse_capture.md R139).  R252
says nothing of a finite list of samples.  DESIGN CHOICE (log 18): the first level counts from the list's first sample,
as if the line had just changed to it, so a first level of one sample before a change is refused; the last level may be
one sample long, since it may go on after the list. -/
def envEdgeSpacing : List Bool → Bool
  | [] => true
  | l :: ls => spacedFrom l 1 ls

/-- `ENV_REPLY_43` from a point of a list of rules that fire: `owed` is the number of edges the sensor still owes to
the last RELEASE, `none` before the first RELEASE, of which the premise says nothing.  DESIGN CHOICE (log 18): at the
end of the list nothing may be owed, so a list that breaks off within a reply does not meet the premise. -/
def reply43From (owed : Option Nat) : List Instr → Bool
  | [] => decide (owed = none ∨ owed = some 0)
  | .release :: is => decide (owed = none ∨ owed = some 0) && reply43From (some 43) is
  | .edge :: is =>
    match owed with
    | none => reply43From none is
    | some 0 => false
    | some (n + 1) => reply43From (some n) is
  | .trigger :: is => reply43From owed is
  | .decode :: is => reply43From owed is
  | .nop _ :: is => reply43From owed is
  | .read :: is => reply43From owed is
  | .advance _ :: is => reply43From owed is
  | .reset :: is => reply43From owed is

/-- `ENV_REPLY_43`: after each RELEASE exactly 43 rising edges, then none until the next RELEASE (R252). -/
def envReply43 (is : List Instr) : Bool := reply43From none is

/-- A pace of the clock between two `clk` periods: by at most `T_CLK + CLK_GRAN` (40_trigger_sequencer.md R112). -/
def ClockedPace (c : Config) (d : Nat) : Prop := d ≤ c.tClk + c.clkGran

/-- The number of low-to-high changes in a list of samples, `level` being the sample before it. -/
def countRises (level : Bool) : List Bool → Nat
  | [] => 0
  | l :: ls => (if !level && l then 1 else 0) + countRises l ls

/-- The number of edges the detector raises in `clk` periods (without `rst`) that sample the levels of a list. -/
def edgesRaised (e : EdgeDetector) : List Bool → Nat
  | [] => 0
  | l :: ls => (if e.rising then 1 else 0) + edgesRaised (e.sample l) ls

/-- A run is ended: no further byte, no hold in progress, no edge offered (70_reset_and_hazards.md R254).  R254 is at
rule level and says nothing of a turn that is neither a byte nor an edge.  DESIGN CHOICE (log 16): a pending `.period`
turn counts as a further edge, whatever its pins, since a line level may still become one; a pending `.reset`,
`.command`, `.read`, `.release` or `.advance` turn counts as neither a byte nor an edge, so it does not keep a run from
being ended. -/
def State.ended (s : State) : Bool :=
  s.cmdPort.isEmpty && s.cmdReady
    && s.agenda.all fun t => match t with
      | .edge => false
      | .present _ => false
      | .period _ => false
      | .command => true
      | .read => true
      | .release => true
      | .advance _ => true
      | .reset => true

end Machine
end Sys2Proof
end

