-- ==== Sys2Proof/Certificates/Slice0/Obligations.lean ====
section
/-! DEFINITION. The statements about the capture block, for the provers.  A frame is written as an equation
`t = s with the named fields as they are in t`: every field that is not named is unchanged, the edge log among them
unless it is named.

What every statement here takes from the model and not from the spec: the parameters of R8, the widths among them, are
the fields of `cfg` (log 3), and a register is a number below `2 ^ width`, `State.WidthsFit` (log 4); which rule comes
next is on `agenda` (log 5); `results` is the record of what the host got (log 7), `cmdPort` that of the bytes it
presents (log 8).  In a list of rules (`runRules`) one that is not enabled where it stands changes nothing (log 6).  A
docstring names the other choices its statement rests on. -/

open Sys2Proof Sys2Proof.Machine

/-! ## The trigger sequencer: TRIGGER and RELEASE -/

/-- Spec R110 (and R117: the log is not cleared).  TRIGGER completes in READY, in either controller state.  That in
HOLD a TRIGGER which does not fire answers the state unchanged is the model's choice (log 6, DESIGN CHOICE). -/
def Obligations.TriggerArmsCapture : Prop :=
  (∀ s : State, s.seqPhase = .ready →
    ∃ t, exec .trigger s = .next t
      ∧ t.edgeCounter = 0 ∧ t.referenceTime = s.clock ∧ t.holdStart = s.clock
      ∧ t.pinDir = .output ∧ t.seqPhase = .hold ∧ t.ctrlState = .triggered ∧ t.triggeredOnce = true
      ∧ t = { s with
              edgeCounter := t.edgeCounter, referenceTime := t.referenceTime, holdStart := t.holdStart,
              pinDir := t.pinDir, seqPhase := t.seqPhase, ctrlState := t.ctrlState,
              triggeredOnce := t.triggeredOnce })
  ∧ (∀ s : State, s.seqPhase = .hold → exec .trigger s = .next s)
  ∧ (∀ (c : Config) (rest : List Byte), decode c (c.cmdTrigger :: rest) = .ok (.trigger, rest))
  ∧ Config.default.cmdTrigger = 0x30#8

/-- Spec R112.  RELEASE completes in HOLD once `HOLD_NS` has passed since the hold began, modulo `2 ^ SAMPLE_W`.  With a
`clk` it fires in the first period in which its condition holds, so a hold observed every `T_CLK + CLK_GRAN` ends before
`HOLD_NS + T_CLK + CLK_GRAN` (log 10 for the period).  Two clauses are the model's choice: a RELEASE whose condition
does not hold answers the state unchanged (log 6, DESIGN CHOICE), and with an empty agenda an enabled RELEASE is the
very next step (log 5, DESIGN CHOICE; the spec has only the weak fairness of R255). -/
def Obligations.ReleaseEndsHold : Prop :=
  (∀ s : State, s.seqPhase = .hold → s.cfg.holdNs ≤ subMod s.cfg.sampleW s.clock s.holdStart →
    ∃ t, exec .release s = .next t
      ∧ t.pinDir = .input ∧ t.seqPhase = .ready
      ∧ t = { s with pinDir := t.pinDir, seqPhase := t.seqPhase })
  ∧ (∀ s : State,
      (s.seqPhase = .ready ∨ subMod s.cfg.sampleW s.clock s.holdStart < s.cfg.holdNs) → exec .release s = .next s)
  ∧ (∀ s : State, s.cfg.setupOk = true → s.agenda = [] → s.seqPhase = .hold →
      s.cfg.holdNs ≤ subMod s.cfg.sampleW s.clock s.holdStart → step s = exec .release s)
  ∧ (∀ (s : State) (p : Pins), p.rst = false →
      (Turn.release ∈ s.periodTurns p ↔
        s.seqPhase = .hold ∧ s.cfg.holdNs ≤ subMod s.cfg.sampleW s.clock s.holdStart))
  ∧ (∀ (s : State) (p : Pins) (d : Nat), s.seqPhase = .hold → p.rst = false → Turn.release ∉ s.periodTurns p →
      ClockedPace s.cfg d → subMod s.cfg.sampleW s.clock s.holdStart + d < 2 ^ s.cfg.sampleW →
      subMod s.cfg.sampleW (s.tick d).clock (s.tick d).holdStart < s.cfg.holdNs + s.cfg.tClk + s.cfg.clkGran)
  ∧ Config.default.holdNs = 1000000

/-- Spec R112 (b): a RELEASE fires at most once per TRIGGER.  From READY, no rule but TRIGGER leaves READY, and in
READY a RELEASE does not fire: the state unchanged, the model's choice (log 6, DESIGN CHOICE). -/
def Obligations.ReleaseNeedsItsTrigger : Prop :=
  ∀ (s : State) (is : List Instr), s.seqPhase = .ready → (∀ i ∈ is, i ≠ .trigger) →
    ∃ t, runRules is s = .next t ∧ t.seqPhase = .ready ∧ exec .release t = .next t

/-- Spec R97: in HOLD no command rule is enabled, whatever the byte, and the byte waits at the port (R39 (a)); READ is
not held off; in READY the byte at the port is accepted, its rule fires and the byte is consumed (R175, R39 (a)).  That
a command turn in HOLD is a spent turn in which nothing changes is the model's choice (log 6, DESIGN CHOICE). -/
def Obligations.HoldKeepsCommandsWaiting : Prop :=
  (∀ (s : State) (i : Instr), s.seqPhase = .hold → i.isCommand = true → exec i s = .next s)
  ∧ (∀ (s : State) (b : Byte) (bs : List Byte) (rest : List Turn),
      s.cfg.setupOk = true → s.seqPhase = .hold → s.agenda = .command :: rest → s.cmdPort = b :: bs →
      step s = .next { s with agenda := rest })
  ∧ (∀ s : State, s.seqPhase = .hold →
      exec .read s = .next { s with results := s.results ++ [.reading s.reading] })
  ∧ (∀ (s : State) (b : Byte) (bs : List Byte) (rest : List Turn),
      s.cfg.setupOk = true → s.seqPhase = .ready → s.agenda = .command :: rest → s.cmdPort = b :: bs →
      ∃ t, step s = .next t ∧ step s = exec (decodeByte s.cfg b) { s with agenda := rest, cmdPort := bs }
        ∧ t.cmdPort = bs)

/-! ## The clock and the capture handler: ADVANCE and EDGE -/

/-- Spec R131: ADVANCE completes in every state, adds `d` to the clock modulo `2 ^ SAMPLE_W` (2^64) and writes nothing
else, and it is the only rule that writes the clock. -/
def Obligations.AdvanceMovesOnlyTheClock : Prop :=
  (∀ (s : State) (d : Nat), ∃ t, exec (.advance d) s = .next t
      ∧ t.clock = (s.clock + d) % 2 ^ s.cfg.sampleW ∧ t = { s with clock := t.clock })
  ∧ (∀ (i : Instr) (s t : State), exec i s = .next t → t.clock ≠ s.clock → ∃ d, i = .advance d)
  ∧ Config.default.sampleW = 64

/-- Spec R133, with `SKIP` for 3 and `SKIP + LOG_DEPTH - 1` for 42 (R8): EDGE completes in every state.  It stores the
delta in slot `edge_counter - SKIP` where the counter's value on entry lies in the window, moves the reference time to
the same sample of the clock, and counts up to the ceiling. -/
def Obligations.EdgeCapturesDelta : Prop :=
  (∀ s : State, ∃ t, exec .edge s = .next t
      ∧ t.referenceTime = s.clock
      ∧ t.edgeCounter = (if s.edgeCounter < 2 ^ s.cfg.cntW - 1 then s.edgeCounter + 1 else s.edgeCounter)
      ∧ (∀ i, t.edgeLog.read i =
          if i < s.cfg.logDepth ∧ s.edgeCounter = s.cfg.skip + i then
            subMod s.cfg.sampleW s.clock s.referenceTime
          else s.edgeLog.read i)
      ∧ ((s.edgeCounter < s.cfg.skip ∨ s.cfg.skip + s.cfg.logDepth ≤ s.edgeCounter) → t.edgeLog = s.edgeLog)
      ∧ t = { s with
              edgeLog := t.edgeLog, referenceTime := t.referenceTime, edgeCounter := t.edgeCounter })
  ∧ Config.default.skip = 3 ∧ Config.default.logDepth = 40 ∧ Config.default.sampleW = 64
  ∧ Config.default.cntW = 32

/-- Spec R135: past the window (43 edges by default) further edges never write the log, whatever else happens inside
the cycle; each still moves the reference time and counts. -/
def Obligations.ExtraEdgesLeaveTheLog : Prop :=
  ∀ (s : State) (is : List Instr), s.captureComplete = true → withinCycle is = true →
    (∃ t, runRules is s = .next t ∧ t.edgeLog = s.edgeLog ∧ t.captureComplete = true)
    ∧ exec .edge s = .next { s with referenceTime := s.clock, edgeCounter := satInc s.cfg.cntW s.edgeCounter }

/-- Spec R138: after a TRIGGER and exactly `SKIP + LOG_DEPTH` (43) EDGE rules at clock values `ts`, with any other rules
but TRIGGER and RESET among them, the counter is that number and slot `k` holds `ts[k + SKIP] - ts[k + SKIP - 1]`
modulo `2 ^ SAMPLE_W`, which is `ts[k + 3] - ts[k + 2]` modulo 2^64. -/
def Obligations.FullCaptureHoldsFortyDeltas : Prop :=
  (∀ (s : State) (is : List Instr) (ts : List Nat), s.seqPhase = .ready → s.cfg.wf = true → 0 < s.cfg.skip →
    withinCycle is = true → ts = edgeTimes s.cfg.sampleW is s.clock → ts.length = s.cfg.skip + s.cfg.logDepth →
    ∃ t, runRules (.trigger :: is) s = .next t
      ∧ t.edgeCounter = s.cfg.skip + s.cfg.logDepth
      ∧ ∀ k < s.cfg.logDepth, t.edgeLog.read k =
          subMod s.cfg.sampleW (ts.getD (k + s.cfg.skip) 0) (ts.getD (k + s.cfg.skip - 1) 0))
  ∧ Config.default.skip = 3 ∧ Config.default.logDepth = 40 ∧ Config.default.sampleW = 64

/-- Spec R244, R134, R71: after a TRIGGER and `n` EDGE rules the counter is `n` (up to its ceiling), and every slot
that the cycle has not reached yet, `n <= SKIP + k`, is as it was before the TRIGGER; so the first `SKIP` edges of a
cycle never write the log. -/
def Obligations.UnreachedSlotsStayOld : Prop :=
  ∀ (s : State) (is : List Instr) (n : Nat), s.seqPhase = .ready → withinCycle is = true →
    n = (edgeTimes s.cfg.sampleW is s.clock).length →
    ∃ t, runRules (.trigger :: is) s = .next t
      ∧ t.edgeCounter = min n (2 ^ s.cfg.cntW - 1)
      ∧ (∀ k, n ≤ s.cfg.skip + k → t.edgeLog.read k = s.edgeLog.read k)
      ∧ (n ≤ s.cfg.skip → t.edgeLog = s.edgeLog)

/-- Spec R136: the counter stays at its ceiling, `2 ^ CNT_W - 1` (2^32 - 1 = 4294967295), and no rule tells two counter
values past the window apart, so the ceiling is unobservable. -/
def Obligations.CounterCeilingUnobservable : Prop :=
  (∀ s : State, s.edgeCounter = 2 ^ s.cfg.cntW - 1 →
      ∃ t, exec .edge s = .next t ∧ t.edgeCounter = s.edgeCounter)
  ∧ (∀ (i : Instr) (s : State) (c d : Nat),
      s.cfg.skip + s.cfg.logDepth ≤ c → s.cfg.skip + s.cfg.logDepth ≤ d →
      ∃ (t : State) (c' d' : Nat),
        exec i { s with edgeCounter := c } = .next { t with edgeCounter := c' }
        ∧ exec i { s with edgeCounter := d } = .next { t with edgeCounter := d' }
        ∧ (c' = d' ∨ (t.cfg.skip + t.cfg.logDepth ≤ c' ∧ t.cfg.skip + t.cfg.logDepth ≤ d')))
  ∧ Config.default.cntW = 32

/-- Spec R141 (a): with a clock that does not wrap no timestamp is ever later than the clock, and then the delta an
EDGE stores is the true elapsed time.  That the clock is of its width is the invariant `State.WidthsFit`. -/
def Obligations.DeltaIsElapsedTime : Prop :=
  (∀ (i : Instr) (s : State), s.TimestampsPast → ClkNoWrap i s → ∃ t, exec i s = .next t ∧ t.TimestampsPast)
  ∧ (∀ (s : State) (k : Nat), s.TimestampsPast → s.WidthsFit → k < s.cfg.logDepth →
      s.edgeCounter = s.cfg.skip + k →
      ∃ t, exec .edge s = .next t ∧ t.edgeLog.read k = s.clock - s.referenceTime)

/-- Spec R138 (last sentence), R33: the rules other than EDGE and ADVANCE may fall anywhere inside a cycle without
changing what is captured. -/
def Obligations.OtherRulesDoNotDisturbCapture : Prop :=
  ∀ (s : State) (is : List Instr), withinCycle is = true →
    ∃ t u, runRules is s = .next t
      ∧ runRules (is.filter fun i => match i with
          | .edge => true
          | .advance _ => true
          | _ => false) s = .next u
      ∧ t.edgeLog = u.edgeLog ∧ t.edgeCounter = u.edgeCounter ∧ t.referenceTime = u.referenceTime
      ∧ t.clock = u.clock

/-- Spec R252 (`ENV_NO_EDGE_WHILE_DRIVEN`), R112 (a), R111: in a hold, under that premise and before its RELEASE,
nothing is counted or logged and the reference time is still the TRIGGER's sample of the clock. -/
def Obligations.HoldWithoutEdgesKeepsTheTriggerTime : Prop :=
  ∀ (s : State) (is : List Instr), s.seqPhase = .ready → withinCycle is = true → (∀ i ∈ is, i ≠ .release) →
    alongRun EnvNoEdgeWhileDriven is s.arm →
    ∃ t, runRules (.trigger :: is) s = .next t
      ∧ t.edgeCounter = 0 ∧ t.referenceTime = s.clock ∧ t.holdStart = s.clock ∧ t.pinDir = .output
      ∧ t.edgeLog = s.edgeLog

/-- Spec R252 (`ENV_REPLY_43`, `ENV_NO_EDGE_WHILE_DRIVEN`), R138: from a hold in which no edge was counted, a RELEASE
and one reply of the sensor complete the capture, with exactly 43 edges counted, where `SKIP + LOG_DEPTH` is 43.  That the
list holds the whole reply is how the model reads the premise (log 18). -/
def Obligations.ReplyCompletesTheCapture : Prop :=
  ∀ (s : State) (is : List Instr), s.seqPhase = .hold → s.edgeCounter = 0 → s.cfg.wf = true →
    s.cfg.skip + s.cfg.logDepth = 43 → withinCycle is = true → (∀ i ∈ is, i ≠ .release) → envReply43 (.release :: is) = true →
    ∃ t, runRules (.release :: is) s = .next t ∧ t.edgeCounter = 43 ∧ t.captureComplete = true

/-! ## The bit decoder: DECODE -/

/-- Spec R197 (and R195, R196): DECODE completes in READY, in either controller state (R150, R97).  The bits are those of
the log's samples strictly above the threshold, unsigned, the first of each group the most significant bit; the status
is the first failing check; the Reading is overwritten only if the status is OK; controller and status always, with the
codes of R194 and R26 on their ports.  With `FIELD_W = 16` the groups are slots 0 to 15, 16 to 31 and 32 to 39; that
they follow each other alike for another width is the model's choice (log 4), and so is that in HOLD a DECODE which does
not fire answers the state unchanged (log 6, DESIGN CHOICE). -/
def Obligations.DecodeReportsAndStores : Prop :=
  (∀ s : State, s.seqPhase = .ready →
    ∃ (h m c sum : Nat) (st : DecStatus) (t : State),
      (h < 2 ^ s.cfg.fieldW ∧ ∀ i < s.cfg.fieldW,
        h.testBit (s.cfg.fieldW - 1 - i) = decide (s.cfg.threshNs < s.edgeLog.read i))
      ∧ (m < 2 ^ s.cfg.fieldW ∧ ∀ i < s.cfg.fieldW,
        m.testBit (s.cfg.fieldW - 1 - i) = decide (s.cfg.threshNs < s.edgeLog.read (s.cfg.fieldW + i)))
      ∧ (c < 256 ∧ ∀ i < 8,
        c.testBit (7 - i) = decide (s.cfg.threshNs < s.edgeLog.read (2 * s.cfg.fieldW + i)))
      ∧ sum = (h / 256 % 256 + h % 256 + m / 256 % 256 + m % 256) % 256
      ∧ st = (if s.cfg.hRejectUntriggered = true ∧ s.triggeredOnce = false then .rejected
              else if s.cfg.hComplete = true ∧ s.edgeCounter < s.cfg.skip + s.cfg.logDepth then .incomplete
              else if s.cfg.hChecksum = true ∧ sum ≠ c then .checksumFail
              else .ok)
      ∧ exec .decode s = .next t
      ∧ t.reading = (if st = .ok then ⟨h, m⟩ else s.reading)
      ∧ t.ctrlState = .idle ∧ t.decStatus = st
      ∧ t.ctrlStateO = 0#1
      ∧ (st = .ok → t.decStatusO = 0#2) ∧ (st = .incomplete → t.decStatusO = 1#2)
      ∧ (st = .checksumFail → t.decStatusO = 2#2) ∧ (st = .rejected → t.decStatusO = 3#2)
      ∧ t.results = s.results ++ [.decoded st (if st = .ok then some ⟨h, m⟩ else none)]
      ∧ t = { s with
              reading := t.reading, ctrlState := t.ctrlState, decStatus := t.decStatus, results := t.results })
  ∧ (∀ s : State, s.seqPhase = .hold → exec .decode s = .next s)
  ∧ (∀ (c : Config) (rest : List Byte), c.cmdTrigger ≠ c.cmdDecode →
      decode c (c.cmdDecode :: rest) = .ok (.decode, rest))
  ∧ Config.default.threshNs = 115000 ∧ Config.default.cmdDecode = 0x31#8 ∧ Config.default.fieldW = 16
  ∧ Config.default.skip + Config.default.logDepth = 43

/-- Spec R152 (and R150): with every option off a DECODE answers OK and stores, as numbers, the sums of the bits
weighted from the most significant on, with fields of 16 bits, the default; other widths: `DecodeReportsAndStores`. -/
def Obligations.BaselinePackingIsMsbFirst : Prop :=
  (∀ s : State, s.seqPhase = .ready → s.cfg.baseline → s.cfg.fieldW = 16 →
    ∃ t, exec .decode s = .next t
      ∧ t.reading.humidity =
          ∑ i ∈ Finset.range 16, (if s.cfg.threshNs < s.edgeLog.read i then 1 else 0) * 2 ^ (15 - i)
      ∧ t.reading.temperature =
          ∑ i ∈ Finset.Ico 16 32, (if s.cfg.threshNs < s.edgeLog.read i then 1 else 0) * 2 ^ (31 - i)
      ∧ t.decStatus = .ok ∧ t.ctrlState = .idle
      ∧ t.results = s.results ++ [.decoded .ok (some t.reading)])
  ∧ Config.default.fieldW = 16

/-- Spec R151, R158 (a): each bit is 1 exactly if its sample exceeds the threshold, 115000 by default, as unsigned
numbers; whatever the slot held before, a sample of 0 or 115000 decodes to 0, of 115001 and of 2^64 - 1 to 1. -/
def Obligations.ThresholdIsStrictAndUnsigned : Prop :=
  (∀ (s : State) (i : Nat), s.bit i = true ↔ s.cfg.threshNs < s.edgeLog.read i)
  ∧ (∀ (s : State) (i : Nat), s.cfg.threshNs = 115000 →
      State.bit { s with edgeLog := s.edgeLog.write i 0 } i = false
      ∧ State.bit { s with edgeLog := s.edgeLog.write i 115000 } i = false
      ∧ State.bit { s with edgeLog := s.edgeLog.write i 115001 } i = true
      ∧ State.bit { s with edgeLog := s.edgeLog.write i 18446744073709551615 } i = true)
  ∧ Config.default.threshNs = 115000

/-- Spec R153, R155: with every option off nothing but the slots of the two fields (0 to 31 by default; log 4 for
another `FIELD_W`) and the threshold reaches the Reading, the status and the result: two states that differ in anything
else, the checksum's slots among it, decode alike. -/
def Obligations.BaselineReadingDependsOnSlotsOnly : Prop :=
  (∀ s u : State, s.seqPhase = .ready → u.seqPhase = .ready → s.cfg.baseline → u.cfg.baseline →
    s.cfg.threshNs = u.cfg.threshNs → s.cfg.fieldW = u.cfg.fieldW →
    (∀ i < 2 * s.cfg.fieldW, s.edgeLog.read i = u.edgeLog.read i) →
    ∃ s' u', exec .decode s = .next s' ∧ exec .decode u = .next u'
      ∧ s'.reading = u'.reading ∧ s'.decStatus = .ok ∧ u'.decStatus = .ok
      ∧ s'.results = s.results ++ [.decoded .ok (some s'.reading)]
      ∧ u'.results = u.results ++ [.decoded .ok (some s'.reading)])
  ∧ 2 * Config.default.fieldW = 32

/-- Spec R156, R196, R117: a DECODE repeated at once gives the same status, Reading and result, whatever the options.
In the baseline it does so too after any rules between that write no slot of the two fields (0 to 31 by default; log 4
for another `FIELD_W`): TRIGGER among them, and every EDGE outside that part of the window; not RESET, which writes the
whole log.  And whatever the options, the same log and counter (and the same answer to whether a TRIGGER has run) give
the same status and result. -/
def Obligations.DecodeIsIdempotent : Prop :=
  (∀ s : State, s.seqPhase = .ready →
    ∃ t u r, exec .decode s = .next t ∧ exec .decode t = .next u
      ∧ u.reading = t.reading ∧ u.decStatus = t.decStatus
      ∧ t.results = s.results ++ [r] ∧ u.results = s.results ++ [r, r])
  ∧ (∀ (s : State) (is : List Instr), s.seqPhase = .ready → s.cfg.baseline →
    ∃ t u r, exec .decode s = .next t ∧ t.results = s.results ++ [r] ∧ runRules is t = .next u
      ∧ (alongRun WritesNoFieldSlot is t → u.seqPhase = .ready →
          ∃ v, exec .decode u = .next v ∧ v.reading = t.reading ∧ v.decStatus = t.decStatus
            ∧ v.results = u.results ++ [r]))
  ∧ (∀ s u : State, s.seqPhase = .ready → u.seqPhase = .ready → s.cfg = u.cfg →
      s.triggeredOnce = u.triggeredOnce → s.edgeCounter = u.edgeCounter →
      (∀ i < 2 * s.cfg.fieldW + 8, s.edgeLog.read i = u.edgeLog.read i) →
      ∃ s' u' r, exec .decode s = .next s' ∧ exec .decode u = .next u'
        ∧ s'.decStatus = u'.decStatus ∧ s'.results = s.results ++ [r] ∧ u'.results = u.results ++ [r])

/-- Spec R243, R138, R150: a baseline DECODE after a TRIGGER and at least `SKIP + LOG_DEPTH` (43) EDGE rules returns the
reading of that cycle: bit `i` of the humidity, from the top, says whether the time from edge `i + SKIP - 1` to edge
`i + SKIP` exceeds the threshold, and so on for the temperature `FIELD_W` edges later (log 4 for a `FIELD_W` other
than 16). -/
def Obligations.DecodeReturnsTheCurrentCycle : Prop :=
  ∀ (s : State) (is : List Instr) (ts : List Nat), s.seqPhase = .ready → s.cfg.wf = true → 0 < s.cfg.skip →
    s.cfg.baseline → withinCycle is = true → ts = edgeTimes s.cfg.sampleW is s.clock →
    s.cfg.skip + s.cfg.logDepth ≤ ts.length →
    ∃ t, runRules (.trigger :: is) s = .next t
      ∧ (t.seqPhase = .ready → ∃ u, exec .decode t = .next u ∧ u.decStatus = .ok
          ∧ (∀ i < s.cfg.fieldW, u.reading.humidity.testBit (s.cfg.fieldW - 1 - i) =
              decide (s.cfg.threshNs <
                subMod s.cfg.sampleW (ts.getD (i + s.cfg.skip) 0) (ts.getD (i + s.cfg.skip - 1) 0)))
          ∧ (∀ i < s.cfg.fieldW, u.reading.temperature.testBit (s.cfg.fieldW - 1 - i) =
              decide (s.cfg.threshNs <
                subMod s.cfg.sampleW (ts.getD (s.cfg.fieldW + i + s.cfg.skip) 0)
                  (ts.getD (s.cfg.fieldW + i + s.cfg.skip - 1) 0))))

/-- Spec R191: with `H_COMPLETE` and no rejection, a DECODE after a TRIGGER and `n` EDGE rules reports INCOMPLETE
exactly if `n < SKIP + LOG_DEPTH` (43), and then keeps the Reading. -/
def Obligations.CompletenessCountsTheCycle : Prop :=
  ∀ (s : State) (is : List Instr), s.seqPhase = .ready → s.cfg.wf = true → s.cfg.hComplete = true →
    withinCycle is = true →
    ∃ t, runRules (.trigger :: is) s = .next t
      ∧ (t.seqPhase = .ready → ∃ u, exec .decode t = .next u
          ∧ (u.decStatus = .incomplete ↔
              (edgeTimes s.cfg.sampleW is s.clock).length < s.cfg.skip + s.cfg.logDepth)
          ∧ (u.decStatus = .incomplete → u.reading = t.reading))

/-- Spec R252 (`HOST_WAITS`), R243, R191: a host that waits for the capture is never told INCOMPLETE. -/
def Obligations.WaitingHostIsNeverIncomplete : Prop :=
  ∀ s : State, s.seqPhase = .ready → HostWaits .decode s →
    ∃ t, exec .decode s = .next t ∧ t.decStatus ≠ .incomplete

/-! ## The reading store and the controller: READ, NOP -/

/-- Spec R171, R170: READ completes in every state, answers the stored pair and writes no register; between decodes
and resets the pair does not change, so every READ there answers the same pair. -/
def Obligations.ReadAnswersTheStoredPair : Prop :=
  (∀ s : State, ∃ t, exec .read s = .next t
      ∧ t.results = s.results ++ [.reading ⟨s.rdHumidity, s.rdTemperature⟩]
      ∧ t = { s with results := t.results })
  ∧ (∀ (s : State) (is : List Instr), (∀ i ∈ is, i ≠ .decode ∧ i ≠ .reset) →
      ∃ t u, runRules is s = .next t ∧ exec .read t = .next u
        ∧ u.results = t.results ++ [.reading s.reading])

/-- Spec R65: where a host wants one word the humidity is its high half (bits 31 to 16), and as bytes the word is sent
most significant byte first.  The premises say that the fields are of their width, as `State.WidthsFit` keeps them.
The first clause at a width other than 16, of which R65 says nothing, is the model's choice (log 17, DESIGN CHOICE). -/
def Obligations.ReadPortLayout : Prop :=
  (∀ (w : Nat) (r : Reading), r.temperature < 2 ^ w →
    r.word w / 2 ^ w = r.humidity ∧ r.word w % 2 ^ w = r.temperature)
  ∧ (∀ r : Reading, r.humidity < 2 ^ 16 → r.temperature < 2 ^ 16 →
    r.word 16 < 2 ^ 32
    ∧ (r.bytes 16).map BitVec.toNat =
        [r.humidity / 256, r.humidity % 256, r.temperature / 256, r.temperature % 256])

/-- Spec R172, R92: a NOP completes in READY and changes no register; its only effect is that the byte is consumed, at
the command context's turn (logs 5 and 8, the model's choice of how a turn and the port are kept).  In HOLD its byte
waits (`HoldKeepsCommandsWaiting`). -/
def Obligations.NopOnlyConsumesItsByte : Prop :=
  (∀ (s : State) (b : Byte), s.seqPhase = .ready → exec (.nop b) s = .next s)
  ∧ (∀ (s : State) (b : Byte) (bs : List Byte) (rest : List Turn),
      s.cfg.setupOk = true → s.seqPhase = .ready → s.agenda = .command :: rest → s.cmdPort = b :: bs →
      b ≠ s.cfg.cmdTrigger → b ≠ s.cfg.cmdDecode →
      step s = .next { s with agenda := rest, cmdPort := bs })

/-- Spec R174: the controller's transition table.  A command waits in HOLD and then changes nothing (log 6, the model's
choice of how a rule that does not fire answers); RESET goes to Idle by R240. -/
def Obligations.ControllerTransitions : Prop :=
  ∀ (i : Instr) (s t : State), exec i s = .next t →
    t.ctrlState =
      match i with
      | .trigger => if s.seqPhase = .ready then .triggered else s.ctrlState
      | .decode => if s.seqPhase = .ready then .idle else s.ctrlState
      | .reset => .idle
      | .nop _ => s.ctrlState
      | .read => s.ctrlState
      | .edge => s.ctrlState
      | .release => s.ctrlState
      | .advance _ => s.ctrlState

/-! ## Reset -/

/-- Spec R240 with the values of R40: RESET completes in every state; every block register takes its reset value, the
log `LOG_INIT` (a parameter: log 12, DESIGN CHOICE), and the clock is not written.  In a `clk` period with `rst = 1`
RESET is the only rule: the next step is that RESET, no byte is consumed and no edge is counted.  The model's own
choices: the detector's ones are R139's as log 10 deduces them, the host's results survive (log 7, DESIGN CHOICE), and
the bytes presented, the turns to come and the parameters are unchanged (log 8, log 5 and log 3, DESIGN CHOICE). -/
def Obligations.ResetRestoresEveryRegister : Prop :=
  (∀ s : State, ∃ t, exec .reset s = .next t
      ∧ (∀ k, t.edgeLog.read k = s.cfg.logInit.read k)
      ∧ t.edgeCounter = 0 ∧ t.referenceTime = 0 ∧ t.reading = ⟨0, 0⟩
      ∧ t.ctrlState = .idle ∧ t.seqPhase = .ready ∧ t.holdStart = 0 ∧ t.pinDir = .input
      ∧ t.triggeredOnce = false ∧ t.decStatus = .ok ∧ t.detector = ⟨true, true, true⟩
      ∧ t.clock = s.clock ∧ t.cfg = s.cfg ∧ t.cmdPort = s.cmdPort ∧ t.agenda = s.agenda
      ∧ t.results = s.results)
  ∧ (∀ (s : State) (p : Pins) (rest : List Turn), s.cfg.setupOk = true → s.agenda = .period p :: rest →
      p.rst = true →
      ∃ t, step s = .next t ∧ t.cmdPort = s.cmdPort ∧ t.edgeCounter = s.edgeCounter
        ∧ step t = exec .reset { s with agenda := rest })

/-- Spec R40: the values of every block register in the reset state. -/
def Obligations.ResetStateHasTheSpecsValues : Prop :=
  (∀ k, State.reset.edgeLog.read k = 0)
  ∧ State.reset.edgeCounter = 0 ∧ State.reset.referenceTime = 0
  ∧ State.reset.reading.humidity = 0 ∧ State.reset.reading.temperature = 0
  ∧ State.reset.ctrlState = .idle ∧ State.reset.seqPhase = .ready ∧ State.reset.holdStart = 0
  ∧ State.reset.pinDir = .input ∧ State.reset.triggeredOnce = false ∧ State.reset.decStatus = .ok

/-! ## Encoding -/

/-- Spec R91: the decoder's map on all 256 bytes. -/
def Obligations.DecoderFollowsTheOpcodeMap : Prop :=
  ∀ (op : Byte) (rest : List Byte),
    decode Config.default (op :: rest) =
      .ok (if op = 0x30#8 then .trigger else if op = 0x31#8 then .decode else .nop op, rest)

/-- Spec R91, R92 (vectors V-C1 to V-C4): a few words, each decoded as the table says. -/
def Obligations.SampleWordsDecode : Prop :=
  decodeTableWord 8 0x30 = some .trigger ∧ decodeTableWord 8 0x31 = some .decode
  ∧ decodeTableWord 8 0x00 = some (.nop 0x00#8) ∧ decodeTableWord 8 0x0A = some (.nop 0x0A#8)
  ∧ decodeTableWord 8 0x2F = some (.nop 0x2F#8) ∧ decodeTableWord 8 0x32 = some (.nop 0x32#8)
  ∧ decodeTableWord 8 0xFF = some (.nop 0xFF#8)

/-- Spec R90, R91: what the encoder writes for a well-formed instruction the decoder reads back, operand and all,
under every well-formed configuration; exactly the commands have an encoding, of one byte (R94). -/
def Obligations.EncodedInstructionDecodesBack : Prop :=
  ∀ (c : Config) (i : Instr), c.wf = true → i.wf c = true →
    (∀ (bs rest : List Byte), encode c i = some bs → bs.length = 1 ∧ decode c (bs ++ rest) = .ok (i, rest))
    ∧ (i.isCommand = true ↔ ∃ bs, encode c i = some bs)

/-- Spec R91, R92: every byte is exactly one command, well formed, whose encoding is that byte. -/
def Obligations.EveryByteIsOneCommand : Prop :=
  ∀ (c : Config) (op : Byte) (rest : List Byte),
    ∃ i, decode c (op :: rest) = .ok (i, rest) ∧ i.wf c = true ∧ i.isCommand = true ∧ encode c i = some [op]

/-! ## Steps and interleaving -/

/-- Spec R97, R175, R94: a step runs the rule its turn selects.  At a command turn it is the decoded byte's rule, from
the state with the turn spent, and the byte spent exactly if the port is ready; at the others it is that operation's
rule.  The model's choices: that the rule is selected by the first turn of the agenda (log 5, DESIGN CHOICE), that a
present turn appends its byte to the port (log 8, DESIGN CHOICE), and that `withFetchWord` stands for the host's placing
a byte (log 9, DEDUCED). -/
def Obligations.StepRunsTheSelectedRule : Prop :=
  (∀ (s : State) (rest : List Turn) (i : Instr) (bs : List Byte),
      s.cfg.setupOk = true → s.agenda = .command :: rest → decode s.cfg s.cmdPort = .ok (i, bs) →
      step s = exec i { s with agenda := rest, cmdPort := if s.cmdReady then bs else s.cmdPort })
  ∧ (∀ (s : State) (rest : List Turn), s.cfg.setupOk = true →
      (s.agenda = .read :: rest → step s = exec .read { s with agenda := rest })
      ∧ (s.agenda = .edge :: rest → step s = exec .edge { s with agenda := rest })
      ∧ (s.agenda = .release :: rest → step s = exec .release { s with agenda := rest })
      ∧ (∀ d, s.agenda = .advance d :: rest → step s = exec (.advance d) { s with agenda := rest })
      ∧ (s.agenda = .reset :: rest → step s = exec .reset { s with agenda := rest })
      ∧ (∀ b, s.agenda = .present b :: rest →
          step s = .next { s with agenda := rest, cmdPort := s.cmdPort ++ [b] }))
  ∧ (∀ (s : State) (w : Nat), s.cfg.setupOk = true → s.seqPhase = .ready → w < 256 →
      step (s.withFetchWord 8 w) = exec (decodeByte s.cfg (BitVec.ofNat 8 w)) s)

/-- Spec R67, R66: every step is one whole rule, or moves only the ports: the agenda, the bytes presented and the
edge detector, all three kept as logs 5, 8 and 10 say. -/
def Obligations.StepIsOneWholeRule : Prop :=
  ∀ s t : State, step s = .next t →
    (∃ (i : Instr) (u : State), exec i u = .next t ∧ u = { s with agenda := u.agenda, cmdPort := u.cmdPort })
    ∨ t = { s with agenda := t.agenda, cmdPort := t.cmdPort, detector := t.detector }

/-- Spec R255, R226: when the environment offers nothing more, an enabled RELEASE and a byte presented in READY are
not postponed, and otherwise the block holds its registers; a byte that waits through a hold whose time is over is
accepted in the second step.  That these are the very next steps, RELEASE before a byte, is the model's choice (log 5,
DESIGN CHOICE; the spec has only weak fairness), and what ends a run beside R254's three conditions is log 16. -/
def Obligations.BlockDrainsByItself : Prop :=
  (∀ s : State, s.cfg.setupOk = true → s.agenda = [] → s.releaseEnabled = true → step s = exec .release s)
  ∧ (∀ (s : State) (b : Byte) (bs : List Byte), s.cfg.setupOk = true → s.agenda = [] → s.seqPhase = .ready →
      s.cmdPort = b :: bs → step s = exec (decodeByte s.cfg b) { s with cmdPort := bs })
  ∧ (∀ s : State, s.cfg.setupOk = true → s.agenda = [] → s.releaseEnabled = false →
      (s.seqPhase = .hold ∨ s.cmdPort = []) → step s = .next s)
  ∧ (∀ s : State, s.cfg.setupOk = true → s.agenda = [] → s.ended = true → step s = .next s)
  ∧ (∀ (s : State) (b : Byte) (bs : List Byte), s.cfg.setupOk = true → s.agenda = [] → s.releaseEnabled = true →
      s.cmdPort = b :: bs →
      ∃ t u, step s = .next t ∧ step t = .next u ∧ t.seqPhase = .ready ∧ t.cmdPort = b :: bs ∧ u.cmdPort = bs)

/-- Spec R215: the two orders of an EDGE and a command differ for TRIGGER, by one counted edge, and for DECODE: EDGE
first, it decodes the new sample, EDGE second, the old one, with the same log, counter and reference time after both.
An EDGE commutes with NOP, READ and RELEASE.  Which bit of which field slot `k` is follows R152 with `FIELD_W = 16`;
for another `FIELD_W` it is the model's choice (log 4, DESIGN CHOICE).  That a `clk` period puts both rules on the
agenda in the order `SAME_INSTANT_ORDER` is the model's (log 10). -/
def Obligations.SameInstantOrdersDiffer : Prop :=
  (∀ s : State, s.seqPhase = .ready →
    ∃ t u, runRules [.edge, .trigger] s = .next t ∧ runRules [.trigger, .edge] s = .next u
      ∧ t.edgeCounter = 0 ∧ (1 < 2 ^ s.cfg.cntW → u.edgeCounter = 1)
      ∧ t.referenceTime = s.clock ∧ u.referenceTime = s.clock
      ∧ (0 < s.cfg.skip → u.edgeLog = s.edgeLog))
  ∧ (∀ (s : State) (k : Nat), s.seqPhase = .ready → s.cfg.baseline → k < s.cfg.logDepth →
      k < 2 * s.cfg.fieldW → s.edgeCounter = s.cfg.skip + k →
    ∃ t u, runRules [.edge, .decode] s = .next t ∧ runRules [.decode, .edge] s = .next u
      ∧ t.edgeLog = u.edgeLog ∧ t.edgeCounter = u.edgeCounter ∧ t.referenceTime = u.referenceTime
      ∧ t.edgeLog.read k = subMod s.cfg.sampleW s.clock s.referenceTime
      ∧ (k < s.cfg.fieldW →
          t.reading.humidity.testBit (s.cfg.fieldW - 1 - k) =
            decide (s.cfg.threshNs < subMod s.cfg.sampleW s.clock s.referenceTime)
          ∧ u.reading.humidity.testBit (s.cfg.fieldW - 1 - k) = decide (s.cfg.threshNs < s.edgeLog.read k))
      ∧ (s.cfg.fieldW ≤ k →
          t.reading.temperature.testBit (2 * s.cfg.fieldW - 1 - k) =
            decide (s.cfg.threshNs < subMod s.cfg.sampleW s.clock s.referenceTime)
          ∧ u.reading.temperature.testBit (2 * s.cfg.fieldW - 1 - k) =
            decide (s.cfg.threshNs < s.edgeLog.read k)))
  ∧ (∀ (s : State) (i : Instr), (i = .read ∨ i = .release ∨ ∃ b, i = .nop b) →
      ∃ t, runRules [.edge, i] s = .next t ∧ runRules [i, .edge] s = .next t)
  ∧ (∀ (s : State) (p : Pins), p.rst = false → s.detector.rising = true → s.releaseEnabled = false →
      s.cmdValid = true → s.seqPhase = .ready →
      (s.cfg.sameInstantOrder = .edgeFirst → s.periodTurns p = [.edge, .command])
      ∧ (s.cfg.sameInstantOrder = .cmdFirst → s.periodTurns p = [.command, .edge]))

/-- Spec R139: the detector, all ones after reset, raises one event for each low-to-high change of the sampled line,
two periods later; a period without `rst` offers EDGE exactly if an event is raised, and samples the line.  That a
period is a step of its own which puts its rules on the agenda is the model's (log 10, DEDUCED). -/
def Obligations.DetectorRaisesEachRiseOnce : Prop :=
  (∀ (levels : List Bool) (a b : Bool),
    edgesRaised State.reset.detector (levels ++ [a, b]) = countRises true levels)
  ∧ (∀ (s : State) (p : Pins) (rest : List Turn), s.cfg.setupOk = true → s.agenda = .period p :: rest →
      p.rst = false →
      ∃ t, step s = .next t
        ∧ t.detector = ⟨p.lineI, s.detector.stage1, s.detector.stage2⟩
        ∧ (Turn.edge ∈ s.periodTurns p ↔ (s.detector.previous = false ∧ s.detector.stage2 = true))
        ∧ t.agenda = s.periodTurns p ++ rest)

/-! ## The whole machine -/

/-- Spec R210: no operation traps, faults or is refused; with `setup_ok` every rule holds (R224), so no step stops.  The
model's choices: that a rule which is not enabled answers the state unchanged (log 6, DESIGN CHOICE), and that without
setup, where "the block offers no step" (D24, U13), every step is the fault `setupFailed` (log 1, DEDUCED). -/
def Obligations.NoOperationStops : Prop :=
  (∀ (i : Instr) (s : State), ∃ t, exec i s = .next t)
  ∧ (∀ s : State, s.cfg.setupOk = true → ∃ t, step s = .next t)
  ∧ (∀ s : State, s.cfg.setupOk = false → step s = .fault .setupFailed)

/-- Spec R33, R39 (c): the ownership table, for every register: a rule that changes it is one of its writers (RESET
writes them all but the clock, R240). -/
def Obligations.RegistersHaveTheirWriters : Prop :=
  ∀ (i : Instr) (s t : State), exec i s = .next t → i ≠ .reset →
    (t.edgeLog ≠ s.edgeLog → i = .edge)
    ∧ (t.edgeCounter ≠ s.edgeCounter → i = .trigger ∨ i = .edge)
    ∧ (t.referenceTime ≠ s.referenceTime → i = .trigger ∨ i = .edge)
    ∧ ((t.rdHumidity ≠ s.rdHumidity ∨ t.rdTemperature ≠ s.rdTemperature) → i = .decode)
    ∧ (t.ctrlState ≠ s.ctrlState → i = .trigger ∨ i = .decode)
    ∧ (t.seqPhase ≠ s.seqPhase → i = .trigger ∨ i = .release)
    ∧ (t.holdStart ≠ s.holdStart → i = .trigger)
    ∧ (t.pinDir ≠ s.pinDir → i = .trigger ∨ i = .release)
    ∧ (t.triggeredOnce ≠ s.triggeredOnce → i = .trigger)
    ∧ (t.decStatus ≠ s.decStatus → i = .decode)
    ∧ (t.clock ≠ s.clock → ∃ d, i = .advance d)
    ∧ t.detector = s.detector ∧ t.cfg = s.cfg ∧ t.cmdPort = s.cmdPort ∧ t.agenda = s.agenda

/-- Spec R29, R38, R27, R39 (b): where the control registers agree, the line is driven low exactly while the command
port is not ready, and the block never drives high. -/
def Obligations.LineIsDrivenExactlyInTheHold : Prop :=
  ∀ s : State, s.ControlCoherent → ((s.lineOe = true ↔ s.cmdReady = false) ∧ s.lineO = false)

/-- Spec R40, R29, R32: the reset state meets the invariants (its clock value 0 is log 2, the canonical form log 11, the
widths as bounds log 4; all three are the model's choice). -/
def Obligations.ResetMeetsTheInvariants : Prop :=
  State.reset.LogCanonical ∧ State.reset.WidthsFit ∧ State.reset.ControlCoherent ∧ State.reset.TimestampsPast
    ∧ State.reset.cfg.wf = true ∧ State.reset.cfg.baseline ∧ CleanLaunch State.reset

/-- Every step keeps the edge log in canonical form, from every state in which it is so.  The form is the model's
representation (log 11, DESIGN CHOICE): a list of (slot, sample) pairs, rising, no entry equal to an unlisted one.  What
of it the spec says is that a slot is one of 0 to `LOG_DEPTH - 1` (R60, R63: no index outside the log is ever
presented) and a sample one of `SAMPLE_W` bits (R60). -/
def Obligations.StepKeepsTheLogCanonical : Prop :=
  ∀ s t : State, s.LogCanonical → step s = .next t → t.LogCanonical

/-- Every step keeps the control registers in agreement, from every state in which they agree (spec R29: the line is
driven exactly in the hold; R26, R32: Triggered only after a TRIGGER). -/
def Obligations.StepKeepsControlCoherent : Prop :=
  ∀ s t : State, s.ControlCoherent → step s = .next t → t.ControlCoherent

/-- Spec R32, R8: no step changes the parameters, and with every option off `dec_status` stays OK. -/
def Obligations.BaselineStatusStaysOk : Prop :=
  ∀ s t : State, step s = .next t →
    t.cfg = s.cfg ∧ (s.cfg.baseline → s.decStatus = .ok → t.decStatus = .ok)

/-! ## The parameters, the widths and the ports -/

/-- Spec R8: the default of every parameter that has one (the three OPEN ones have none: log 3). -/
def Obligations.ParametersHaveTheirDefaults : Prop :=
  Config.default.logDepth = 40 ∧ Config.default.sampleW = 64 ∧ Config.default.skip = 3
  ∧ Config.default.threshNs = 115000 ∧ Config.default.holdNs = 1000000 ∧ Config.default.fieldW = 16
  ∧ Config.default.cmdTrigger = 0x30#8 ∧ Config.default.cmdDecode = 0x31#8 ∧ Config.default.cntW = 32
  ∧ (∀ k, Config.default.logInit.read k = 0)
  ∧ Config.default.hComplete = false ∧ Config.default.hChecksum = false
  ∧ Config.default.hRejectUntriggered = false ∧ Config.default.setupOk = true
  ∧ State.reset.cfg = Config.default

/-- Spec R10, R141: a clock difference is the one number of its width that gives the later sample back, modulo
`2 ^ w`, when the earlier is added; with no wrap between them it is the true difference. -/
def Obligations.ClockDifferenceIsModular : Prop :=
  ∀ w a b : Nat,
    subMod w a b < 2 ^ w ∧ (subMod w a b + b) % 2 ^ w = a % 2 ^ w
    ∧ (∀ d, d < 2 ^ w → (d + b) % 2 ^ w = a % 2 ^ w → d = subMod w a b)
    ∧ (b ≤ a → a < 2 ^ w → subMod w a b = a - b)

/-- Spec R38, with the codes of R194, R26, R27 and R29: what each output port shows of the state. -/
def Obligations.OutputPortsShowTheRegisters : Prop :=
  ∀ s : State,
    (s.decStatus = .ok → s.decStatusO = 0#2) ∧ (s.decStatus = .incomplete → s.decStatusO = 1#2)
    ∧ (s.decStatus = .checksumFail → s.decStatusO = 2#2) ∧ (s.decStatus = .rejected → s.decStatusO = 3#2)
    ∧ (s.ctrlState = .idle → s.ctrlStateO = 0#1) ∧ (s.ctrlState = .triggered → s.ctrlStateO = 1#1)
    ∧ SeqPhase.ready.code = 0#1 ∧ SeqPhase.hold.code = 1#1 ∧ PinDir.input.code = 0#1 ∧ PinDir.output.code = 1#1
    ∧ (s.cmdReady = true ↔ s.seqPhase = .ready)
    ∧ (s.lineOe = true ↔ s.pinDir = .output) ∧ s.lineO = false
    ∧ s.rdHumidity = s.reading.humidity ∧ s.rdTemperature = s.reading.temperature
    ∧ (s.captureCompleteO = true ↔ s.cfg.skip + s.cfg.logDepth ≤ s.edgeCounter)

/-- Spec R20, R8, R158 (b), R136: every step keeps every register within its width, from every state in which the
registers are so: the clock and the timestamps `SAMPLE_W` bits, the counter `CNT_W`, the two fields `FIELD_W`.  That a
register is a number with this bound, and not a bit vector, is the model's choice (log 4, DESIGN CHOICE). -/
def Obligations.StepKeepsTheWidths : Prop :=
  ∀ s t : State, s.WidthsFit → step s = .next t → t.WidthsFit
end

