-- ==== Sys2Proof/Laws/Memory.lean ====
section
/-! SUPPORT. The laws of the edge log: what a read gives after a write, and that a write keeps the canonical form. -/

namespace Sys2Proof

@[simp] theorem Memory.read_nil (i : Nat) : Memory.read [] i = Memory.unlisted := rfl

@[simp] theorem Memory.read_cons (a : Nat) (v : Nat) (m : Memory) (i : Nat) :
    Memory.read ((a, v) :: m) i = if a = i then v else Memory.read m i := rfl

theorem Memory.read_drop (m : Memory) (i j : Nat) :
    (Memory.drop m i).read j = if j = i then Memory.unlisted else m.read j := by
  induction m with
  | nil => simp [Memory.drop]
  | cons c m ih =>
    obtain ⟨a, w⟩ := c
    by_cases ha : a = i
    · have : Memory.drop ((a, w) :: m) i = Memory.drop m i := by simp [Memory.drop, ha]
      rw [this, ih]
      by_cases hj : j = i
      · simp [hj]
      · simp [hj, ha, show ¬ (i = j) from fun h => hj h.symm]
    · have : Memory.drop ((a, w) :: m) i = (a, w) :: Memory.drop m i := by simp [Memory.drop, ha]
      rw [this, Memory.read_cons, ih]
      by_cases hj : j = i
      · simp [hj, ha]
      · simp [hj]

/-- Placing an entry leaves every other slot as it was. -/
theorem Memory.read_place_other (m : Memory) (i j : Nat) (v : Nat) (hj : j ≠ i) :
    (Memory.place m i v).read j = m.read j := by
  have hne : ¬ (i = j) := fun h => hj h.symm
  induction m with
  | nil => simp [Memory.place, hne]
  | cons c m ih =>
    obtain ⟨a, w⟩ := c
    by_cases ha : a < i
    · simp [Memory.place, ha, ih]
    · simp [Memory.place, ha, hne]

/-- The entry placed is the one read. -/
theorem Memory.read_place_same (m : Memory) (i : Nat) (v : Nat) : (Memory.place m i v).read i = v := by
  induction m with
  | nil => simp [Memory.place]
  | cons c m ih =>
    obtain ⟨a, w⟩ := c
    by_cases ha : a < i
    · simp [Memory.place, ha, ih, Nat.ne_of_lt ha]
    · simp [Memory.place, ha]

/-- A read after a write: the value written in its own slot, every other slot as before. -/
theorem Memory.read_write (m : Memory) (i j : Nat) (v : Nat) :
    (m.write i v).read j = if j = i then v else m.read j := by
  unfold Memory.write
  split
  · rename_i hv
    rw [Memory.read_drop, hv]
  · by_cases hj : j = i
    · simp [hj, Memory.read_place_same]
    · simp [hj, Memory.read_place_other, Memory.read_drop]

@[simp] theorem Memory.read_write_same (m : Memory) (i : Nat) (v : Nat) : (m.write i v).read i = v := by
  simp [Memory.read_write]

/-- The canonical form of a log with an entry in front, as its five conditions. -/
theorem Memory.wfFrom_cons {depth width lo a v : Nat} {m : Memory} :
    Memory.wfFrom depth width lo ((a, v) :: m) = true ↔
      lo ≤ a ∧ a < depth ∧ v < 2 ^ width ∧ v ≠ Memory.unlisted ∧ Memory.wfFrom depth width (a + 1) m = true := by
  simp only [Memory.wfFrom, Bool.and_eq_true, decide_eq_true_eq, bne_iff_ne, ne_eq, and_assoc]

section

variable {depth width : Nat}

theorem Memory.wfFrom_mono {m : Memory} {lo lo' : Nat} (h : lo' ≤ lo)
    (hm : Memory.wfFrom depth width lo m = true) : Memory.wfFrom depth width lo' m = true := by
  cases m with
  | nil => rfl
  | cons c m => exact Memory.wfFrom_cons.mpr ((Memory.wfFrom_cons.mp hm).imp_left h.trans)

theorem Memory.wfFrom_drop {m : Memory} {lo : Nat} (i : Nat) (hm : Memory.wfFrom depth width lo m = true) :
    Memory.wfFrom depth width lo (m.drop i) = true := by
  induction m generalizing lo with
  | nil => rfl
  | cons c m ih =>
    obtain ⟨a, v⟩ := c
    obtain ⟨hlo, ha, hv, hne, hrest⟩ := Memory.wfFrom_cons.mp hm
    by_cases hai : a = i
    · have : Memory.drop ((a, v) :: m) i = Memory.drop m i := by simp [Memory.drop, hai]
      rw [this]
      exact ih (Memory.wfFrom_mono (by omega) hrest)
    · have : Memory.drop ((a, v) :: m) i = (a, v) :: Memory.drop m i := by simp [Memory.drop, hai]
      rw [this]
      exact Memory.wfFrom_cons.mpr ⟨hlo, ha, hv, hne, ih hrest⟩

theorem Memory.not_mem_drop (m : Memory) (i : Nat) : ∀ c ∈ m.drop i, c.1 ≠ i := by
  intro c hc
  simpa [Memory.drop] using (List.mem_filter.mp hc).2

theorem Memory.wfFrom_place {m : Memory} {lo i v : Nat} (hlo : lo ≤ i) (hi : i < depth) (hw : v < 2 ^ width)
    (hv : v ≠ Memory.unlisted) (hfree : ∀ c ∈ m, c.1 ≠ i) (hm : Memory.wfFrom depth width lo m = true) :
    Memory.wfFrom depth width lo (m.place i v) = true := by
  induction m generalizing lo with
  | nil => exact Memory.wfFrom_cons.mpr ⟨hlo, hi, hw, hv, rfl⟩
  | cons c m ih =>
    obtain ⟨a, u⟩ := c
    have hne : a ≠ i := hfree (a, u) (by simp)
    obtain ⟨h1, h2, h3, h4, hrest⟩ := Memory.wfFrom_cons.mp hm
    by_cases ha : a < i
    · simp only [Memory.place, ha, if_true]
      exact Memory.wfFrom_cons.mpr ⟨h1, h2, h3, h4, ih (by omega) (fun c hc => hfree c (by simp [hc])) hrest⟩
    · simp only [Memory.place, ha, if_false]
      exact Memory.wfFrom_cons.mpr
        ⟨hlo, hi, hw, hv, Memory.wfFrom_cons.mpr ⟨by omega, h2, h3, h4, hrest⟩⟩

/-- A slot below the first index of a canonical log reads as an unlisted one. -/
theorem Memory.read_of_wfFrom {m : Memory} {lo i : Nat} (hi : i < lo)
    (hm : Memory.wfFrom depth width lo m = true) : m.read i = Memory.unlisted := by
  induction m generalizing lo with
  | nil => rfl
  | cons c m ih =>
    obtain ⟨a, v⟩ := c
    obtain ⟨hlo, _, _, _, hrest⟩ := Memory.wfFrom_cons.mp hm
    rw [Memory.read_cons, if_neg (show ¬ a = i by omega)]
    exact ih (by omega) hrest

/-- Canonical logs that read alike are equal data. -/
theorem Memory.ext_of_wfFrom {m n : Memory} {lo : Nat} (hm : Memory.wfFrom depth width lo m = true)
    (hn : Memory.wfFrom depth width lo n = true) (h : ∀ i < depth, m.read i = n.read i) : m = n := by
  induction m generalizing n lo with
  | nil =>
    cases n with
    | nil => rfl
    | cons e n =>
      obtain ⟨b, u⟩ := e
      obtain ⟨_, hb, _, hne, _⟩ := Memory.wfFrom_cons.mp hn
      have := h b hb
      simp only [Memory.read_nil, Memory.read_cons, if_true] at this
      exact absurd this.symm hne
  | cons c m ih =>
    obtain ⟨a, v⟩ := c
    obtain ⟨_, ha, _, hva, hrm⟩ := Memory.wfFrom_cons.mp hm
    cases n with
    | nil =>
      have := h a ha
      simp only [Memory.read_nil, Memory.read_cons, if_true] at this
      exact absurd this hva
    | cons e n =>
      obtain ⟨b, u⟩ := e
      obtain ⟨_, hb, _, hub, hrn⟩ := Memory.wfFrom_cons.mp hn
      rcases Nat.lt_trichotomy a b with hab | hab | hab
      · have h1 := h a ha
        simp only [Memory.read_cons, if_true, if_neg (show ¬ b = a by omega),
          Memory.read_of_wfFrom (show a < b + 1 by omega) hrn] at h1
        exact absurd h1 hva
      · subst hab
        have h1 := h a ha
        simp only [Memory.read_cons, if_true] at h1
        subst h1
        have hrest : m = n := by
          refine ih hrm hrn fun i hi => ?_
          have hi' := h i hi
          simp only [Memory.read_cons] at hi'
          by_cases hai : a = i
          · rw [Memory.read_of_wfFrom (by omega) hrm, Memory.read_of_wfFrom (by omega) hrn]
          · simpa [hai] using hi'
        rw [hrest]
      · have h1 := h b hb
        simp only [Memory.read_cons, if_true, if_neg (show ¬ a = b by omega),
          Memory.read_of_wfFrom (show b < a + 1 by omega) hrm] at h1
        exact absurd h1.symm hub

end

/-- A write of a sample of its width into a slot of the log keeps the canonical form. -/
theorem Memory.wf_write {c : Config} {m : Memory} {i v : Nat} (hi : i < c.logDepth) (hw : v < 2 ^ c.sampleW)
    (hm : m.wf c = true) : (m.write i v).wf c = true := by
  unfold Memory.write Memory.wf
  have hd : Memory.wfFrom c.logDepth c.sampleW 0 (m.drop i) = true := Memory.wfFrom_drop i hm
  split
  · exact hd
  · rename_i hv
    exact Memory.wfFrom_place (Nat.zero_le _) hi hw hv (Memory.not_mem_drop m i) hd

/-- Canonical logs that read alike are equal data. -/
theorem Memory.ext_of_wf {c : Config} {m n : Memory} (hm : m.wf c = true) (hn : n.wf c = true)
    (h : ∀ i < c.logDepth, m.read i = n.read i) : m = n := Memory.ext_of_wfFrom hm hn h

end Sys2Proof
end

