-- ==== Sys2Proof/Laws/State.lean ====
section
/-! SUPPORT. What each named update of State leaves in each field, so that no later proof unfolds a record update. -/

namespace Sys2Proof.Machine

variable (s : State)

@[simp] theorem State.arm_cfg : s.arm.cfg = s.cfg := rfl
@[simp] theorem State.arm_edgeLog : s.arm.edgeLog = s.edgeLog := rfl
@[simp] theorem State.arm_edgeCounter : s.arm.edgeCounter = 0 := rfl
@[simp] theorem State.arm_referenceTime : s.arm.referenceTime = s.now := rfl
@[simp] theorem State.arm_reading : s.arm.reading = s.reading := rfl
@[simp] theorem State.arm_ctrlState : s.arm.ctrlState = .triggered := rfl
@[simp] theorem State.arm_seqPhase : s.arm.seqPhase = .hold := rfl
@[simp] theorem State.arm_holdStart : s.arm.holdStart = s.now := rfl
@[simp] theorem State.arm_pinDir : s.arm.pinDir = .output := rfl
@[simp] theorem State.arm_triggeredOnce : s.arm.triggeredOnce = true := rfl
@[simp] theorem State.arm_decStatus : s.arm.decStatus = s.decStatus := rfl
@[simp] theorem State.arm_clock : s.arm.clock = s.clock := rfl
@[simp] theorem State.arm_detector : s.arm.detector = s.detector := rfl
@[simp] theorem State.arm_cmdPort : s.arm.cmdPort = s.cmdPort := rfl
@[simp] theorem State.arm_agenda : s.arm.agenda = s.agenda := rfl
@[simp] theorem State.arm_results : s.arm.results = s.results := rfl

@[simp] theorem State.letGo_cfg : s.letGo.cfg = s.cfg := rfl
@[simp] theorem State.letGo_edgeLog : s.letGo.edgeLog = s.edgeLog := rfl
@[simp] theorem State.letGo_edgeCounter : s.letGo.edgeCounter = s.edgeCounter := rfl
@[simp] theorem State.letGo_referenceTime : s.letGo.referenceTime = s.referenceTime := rfl
@[simp] theorem State.letGo_reading : s.letGo.reading = s.reading := rfl
@[simp] theorem State.letGo_ctrlState : s.letGo.ctrlState = s.ctrlState := rfl
@[simp] theorem State.letGo_seqPhase : s.letGo.seqPhase = .ready := rfl
@[simp] theorem State.letGo_holdStart : s.letGo.holdStart = s.holdStart := rfl
@[simp] theorem State.letGo_pinDir : s.letGo.pinDir = .input := rfl
@[simp] theorem State.letGo_triggeredOnce : s.letGo.triggeredOnce = s.triggeredOnce := rfl
@[simp] theorem State.letGo_decStatus : s.letGo.decStatus = s.decStatus := rfl
@[simp] theorem State.letGo_clock : s.letGo.clock = s.clock := rfl
@[simp] theorem State.letGo_detector : s.letGo.detector = s.detector := rfl
@[simp] theorem State.letGo_cmdPort : s.letGo.cmdPort = s.cmdPort := rfl
@[simp] theorem State.letGo_agenda : s.letGo.agenda = s.agenda := rfl
@[simp] theorem State.letGo_results : s.letGo.results = s.results := rfl

@[simp] theorem State.capture_cfg : s.capture.cfg = s.cfg := rfl
@[simp] theorem State.capture_edgeLog : s.capture.edgeLog = s.logAfterEdge := rfl
@[simp] theorem State.capture_edgeCounter : s.capture.edgeCounter = satInc s.cfg.cntW s.edgeCounter := rfl
@[simp] theorem State.capture_referenceTime : s.capture.referenceTime = s.now := rfl
@[simp] theorem State.capture_reading : s.capture.reading = s.reading := rfl
@[simp] theorem State.capture_ctrlState : s.capture.ctrlState = s.ctrlState := rfl
@[simp] theorem State.capture_seqPhase : s.capture.seqPhase = s.seqPhase := rfl
@[simp] theorem State.capture_holdStart : s.capture.holdStart = s.holdStart := rfl
@[simp] theorem State.capture_pinDir : s.capture.pinDir = s.pinDir := rfl
@[simp] theorem State.capture_triggeredOnce : s.capture.triggeredOnce = s.triggeredOnce := rfl
@[simp] theorem State.capture_decStatus : s.capture.decStatus = s.decStatus := rfl
@[simp] theorem State.capture_clock : s.capture.clock = s.clock := rfl
@[simp] theorem State.capture_detector : s.capture.detector = s.detector := rfl
@[simp] theorem State.capture_cmdPort : s.capture.cmdPort = s.cmdPort := rfl
@[simp] theorem State.capture_agenda : s.capture.agenda = s.agenda := rfl
@[simp] theorem State.capture_results : s.capture.results = s.results := rfl

@[simp] theorem State.tick_cfg (d : Nat) : (s.tick d).cfg = s.cfg := rfl
@[simp] theorem State.tick_edgeLog (d : Nat) : (s.tick d).edgeLog = s.edgeLog := rfl
@[simp] theorem State.tick_edgeCounter (d : Nat) : (s.tick d).edgeCounter = s.edgeCounter := rfl
@[simp] theorem State.tick_referenceTime (d : Nat) : (s.tick d).referenceTime = s.referenceTime := rfl
@[simp] theorem State.tick_reading (d : Nat) : (s.tick d).reading = s.reading := rfl
@[simp] theorem State.tick_ctrlState (d : Nat) : (s.tick d).ctrlState = s.ctrlState := rfl
@[simp] theorem State.tick_seqPhase (d : Nat) : (s.tick d).seqPhase = s.seqPhase := rfl
@[simp] theorem State.tick_holdStart (d : Nat) : (s.tick d).holdStart = s.holdStart := rfl
@[simp] theorem State.tick_pinDir (d : Nat) : (s.tick d).pinDir = s.pinDir := rfl
@[simp] theorem State.tick_triggeredOnce (d : Nat) : (s.tick d).triggeredOnce = s.triggeredOnce := rfl
@[simp] theorem State.tick_decStatus (d : Nat) : (s.tick d).decStatus = s.decStatus := rfl
@[simp] theorem State.tick_clock (d : Nat) : (s.tick d).clock = (s.clock + d) % 2 ^ s.cfg.sampleW := rfl
@[simp] theorem State.tick_detector (d : Nat) : (s.tick d).detector = s.detector := rfl
@[simp] theorem State.tick_cmdPort (d : Nat) : (s.tick d).cmdPort = s.cmdPort := rfl
@[simp] theorem State.tick_agenda (d : Nat) : (s.tick d).agenda = s.agenda := rfl
@[simp] theorem State.tick_results (d : Nat) : (s.tick d).results = s.results := rfl

@[simp] theorem State.answer_cfg (r : HostResult) : (s.answer r).cfg = s.cfg := rfl
@[simp] theorem State.answer_edgeLog (r : HostResult) : (s.answer r).edgeLog = s.edgeLog := rfl
@[simp] theorem State.answer_edgeCounter (r : HostResult) : (s.answer r).edgeCounter = s.edgeCounter := rfl
@[simp] theorem State.answer_referenceTime (r : HostResult) : (s.answer r).referenceTime = s.referenceTime := rfl
@[simp] theorem State.answer_reading (r : HostResult) : (s.answer r).reading = s.reading := rfl
@[simp] theorem State.answer_ctrlState (r : HostResult) : (s.answer r).ctrlState = s.ctrlState := rfl
@[simp] theorem State.answer_seqPhase (r : HostResult) : (s.answer r).seqPhase = s.seqPhase := rfl
@[simp] theorem State.answer_holdStart (r : HostResult) : (s.answer r).holdStart = s.holdStart := rfl
@[simp] theorem State.answer_pinDir (r : HostResult) : (s.answer r).pinDir = s.pinDir := rfl
@[simp] theorem State.answer_triggeredOnce (r : HostResult) : (s.answer r).triggeredOnce = s.triggeredOnce := rfl
@[simp] theorem State.answer_decStatus (r : HostResult) : (s.answer r).decStatus = s.decStatus := rfl
@[simp] theorem State.answer_clock (r : HostResult) : (s.answer r).clock = s.clock := rfl
@[simp] theorem State.answer_detector (r : HostResult) : (s.answer r).detector = s.detector := rfl
@[simp] theorem State.answer_cmdPort (r : HostResult) : (s.answer r).cmdPort = s.cmdPort := rfl
@[simp] theorem State.answer_agenda (r : HostResult) : (s.answer r).agenda = s.agenda := rfl
@[simp] theorem State.answer_results (r : HostResult) : (s.answer r).results = s.results ++ [r] := rfl

@[simp] theorem State.conclude_cfg (st : DecStatus) (r : Reading) : (s.conclude st r).cfg = s.cfg := rfl
@[simp] theorem State.conclude_edgeLog (st : DecStatus) (r : Reading) : (s.conclude st r).edgeLog = s.edgeLog := rfl
@[simp] theorem State.conclude_edgeCounter (st : DecStatus) (r : Reading) : (s.conclude st r).edgeCounter = s.edgeCounter := rfl
@[simp] theorem State.conclude_referenceTime (st : DecStatus) (r : Reading) : (s.conclude st r).referenceTime = s.referenceTime := rfl
@[simp] theorem State.conclude_reading (st : DecStatus) (r : Reading) : (s.conclude st r).reading = if st = .ok then r else s.reading := rfl
@[simp] theorem State.conclude_ctrlState (st : DecStatus) (r : Reading) : (s.conclude st r).ctrlState = .idle := rfl
@[simp] theorem State.conclude_seqPhase (st : DecStatus) (r : Reading) : (s.conclude st r).seqPhase = s.seqPhase := rfl
@[simp] theorem State.conclude_holdStart (st : DecStatus) (r : Reading) : (s.conclude st r).holdStart = s.holdStart := rfl
@[simp] theorem State.conclude_pinDir (st : DecStatus) (r : Reading) : (s.conclude st r).pinDir = s.pinDir := rfl
@[simp] theorem State.conclude_triggeredOnce (st : DecStatus) (r : Reading) : (s.conclude st r).triggeredOnce = s.triggeredOnce := rfl
@[simp] theorem State.conclude_decStatus (st : DecStatus) (r : Reading) : (s.conclude st r).decStatus = st := rfl
@[simp] theorem State.conclude_clock (st : DecStatus) (r : Reading) : (s.conclude st r).clock = s.clock := rfl
@[simp] theorem State.conclude_detector (st : DecStatus) (r : Reading) : (s.conclude st r).detector = s.detector := rfl
@[simp] theorem State.conclude_cmdPort (st : DecStatus) (r : Reading) : (s.conclude st r).cmdPort = s.cmdPort := rfl
@[simp] theorem State.conclude_agenda (st : DecStatus) (r : Reading) : (s.conclude st r).agenda = s.agenda := rfl
@[simp] theorem State.conclude_results (st : DecStatus) (r : Reading) : (s.conclude st r).results = s.results := rfl

@[simp] theorem State.restart_cfg : s.restart.cfg = s.cfg := rfl
@[simp] theorem State.restart_edgeLog : s.restart.edgeLog = s.cfg.logInit := rfl
@[simp] theorem State.restart_edgeCounter : s.restart.edgeCounter = 0 := rfl
@[simp] theorem State.restart_referenceTime : s.restart.referenceTime = 0 := rfl
@[simp] theorem State.restart_reading : s.restart.reading = ⟨0, 0⟩ := rfl
@[simp] theorem State.restart_ctrlState : s.restart.ctrlState = .idle := rfl
@[simp] theorem State.restart_seqPhase : s.restart.seqPhase = .ready := rfl
@[simp] theorem State.restart_holdStart : s.restart.holdStart = 0 := rfl
@[simp] theorem State.restart_pinDir : s.restart.pinDir = .input := rfl
@[simp] theorem State.restart_triggeredOnce : s.restart.triggeredOnce = false := rfl
@[simp] theorem State.restart_decStatus : s.restart.decStatus = .ok := rfl
@[simp] theorem State.restart_clock : s.restart.clock = s.clock := rfl
@[simp] theorem State.restart_detector : s.restart.detector = ⟨true, true, true⟩ := rfl
@[simp] theorem State.restart_cmdPort : s.restart.cmdPort = s.cmdPort := rfl
@[simp] theorem State.restart_agenda : s.restart.agenda = s.agenda := rfl
@[simp] theorem State.restart_results : s.restart.results = s.results := rfl

@[simp] theorem State.runPeriod_cfg (p : Pins) : (s.runPeriod p).cfg = s.cfg := rfl
@[simp] theorem State.runPeriod_edgeLog (p : Pins) : (s.runPeriod p).edgeLog = s.edgeLog := rfl
@[simp] theorem State.runPeriod_edgeCounter (p : Pins) : (s.runPeriod p).edgeCounter = s.edgeCounter := rfl
@[simp] theorem State.runPeriod_referenceTime (p : Pins) : (s.runPeriod p).referenceTime = s.referenceTime := rfl
@[simp] theorem State.runPeriod_reading (p : Pins) : (s.runPeriod p).reading = s.reading := rfl
@[simp] theorem State.runPeriod_ctrlState (p : Pins) : (s.runPeriod p).ctrlState = s.ctrlState := rfl
@[simp] theorem State.runPeriod_seqPhase (p : Pins) : (s.runPeriod p).seqPhase = s.seqPhase := rfl
@[simp] theorem State.runPeriod_holdStart (p : Pins) : (s.runPeriod p).holdStart = s.holdStart := rfl
@[simp] theorem State.runPeriod_pinDir (p : Pins) : (s.runPeriod p).pinDir = s.pinDir := rfl
@[simp] theorem State.runPeriod_triggeredOnce (p : Pins) : (s.runPeriod p).triggeredOnce = s.triggeredOnce := rfl
@[simp] theorem State.runPeriod_decStatus (p : Pins) : (s.runPeriod p).decStatus = s.decStatus := rfl
@[simp] theorem State.runPeriod_clock (p : Pins) : (s.runPeriod p).clock = s.clock := rfl
@[simp] theorem State.runPeriod_detector (p : Pins) : (s.runPeriod p).detector = if p.rst then s.detector else s.detector.sample p.lineI := rfl
@[simp] theorem State.runPeriod_cmdPort (p : Pins) : (s.runPeriod p).cmdPort = s.cmdPort := rfl
@[simp] theorem State.runPeriod_agenda (p : Pins) : (s.runPeriod p).agenda = s.periodTurns p ++ s.agenda := rfl
@[simp] theorem State.runPeriod_results (p : Pins) : (s.runPeriod p).results = s.results := rfl

@[simp] theorem State.present_cfg (b : Byte) : (s.present b).cfg = s.cfg := rfl
@[simp] theorem State.present_edgeLog (b : Byte) : (s.present b).edgeLog = s.edgeLog := rfl
@[simp] theorem State.present_edgeCounter (b : Byte) : (s.present b).edgeCounter = s.edgeCounter := rfl
@[simp] theorem State.present_referenceTime (b : Byte) : (s.present b).referenceTime = s.referenceTime := rfl
@[simp] theorem State.present_reading (b : Byte) : (s.present b).reading = s.reading := rfl
@[simp] theorem State.present_ctrlState (b : Byte) : (s.present b).ctrlState = s.ctrlState := rfl
@[simp] theorem State.present_seqPhase (b : Byte) : (s.present b).seqPhase = s.seqPhase := rfl
@[simp] theorem State.present_holdStart (b : Byte) : (s.present b).holdStart = s.holdStart := rfl
@[simp] theorem State.present_pinDir (b : Byte) : (s.present b).pinDir = s.pinDir := rfl
@[simp] theorem State.present_triggeredOnce (b : Byte) : (s.present b).triggeredOnce = s.triggeredOnce := rfl
@[simp] theorem State.present_decStatus (b : Byte) : (s.present b).decStatus = s.decStatus := rfl
@[simp] theorem State.present_clock (b : Byte) : (s.present b).clock = s.clock := rfl
@[simp] theorem State.present_detector (b : Byte) : (s.present b).detector = s.detector := rfl
@[simp] theorem State.present_cmdPort (b : Byte) : (s.present b).cmdPort = s.cmdPort ++ [b] := rfl
@[simp] theorem State.present_agenda (b : Byte) : (s.present b).agenda = s.agenda := rfl
@[simp] theorem State.present_results (b : Byte) : (s.present b).results = s.results := rfl

@[simp] theorem State.placeWord_cfg (nbits w : Nat) : (s.placeWord nbits w).cfg = s.cfg := rfl
@[simp] theorem State.placeWord_edgeLog (nbits w : Nat) : (s.placeWord nbits w).edgeLog = s.edgeLog := rfl
@[simp] theorem State.placeWord_edgeCounter (nbits w : Nat) : (s.placeWord nbits w).edgeCounter = s.edgeCounter := rfl
@[simp] theorem State.placeWord_referenceTime (nbits w : Nat) : (s.placeWord nbits w).referenceTime = s.referenceTime := rfl
@[simp] theorem State.placeWord_reading (nbits w : Nat) : (s.placeWord nbits w).reading = s.reading := rfl
@[simp] theorem State.placeWord_ctrlState (nbits w : Nat) : (s.placeWord nbits w).ctrlState = s.ctrlState := rfl
@[simp] theorem State.placeWord_seqPhase (nbits w : Nat) : (s.placeWord nbits w).seqPhase = s.seqPhase := rfl
@[simp] theorem State.placeWord_holdStart (nbits w : Nat) : (s.placeWord nbits w).holdStart = s.holdStart := rfl
@[simp] theorem State.placeWord_pinDir (nbits w : Nat) : (s.placeWord nbits w).pinDir = s.pinDir := rfl
@[simp] theorem State.placeWord_triggeredOnce (nbits w : Nat) : (s.placeWord nbits w).triggeredOnce = s.triggeredOnce := rfl
@[simp] theorem State.placeWord_decStatus (nbits w : Nat) : (s.placeWord nbits w).decStatus = s.decStatus := rfl
@[simp] theorem State.placeWord_clock (nbits w : Nat) : (s.placeWord nbits w).clock = s.clock := rfl
@[simp] theorem State.placeWord_detector (nbits w : Nat) : (s.placeWord nbits w).detector = s.detector := rfl
@[simp] theorem State.placeWord_cmdPort (nbits w : Nat) : (s.placeWord nbits w).cmdPort = tableBytes nbits w ++ s.cmdPort := rfl
@[simp] theorem State.placeWord_agenda (nbits w : Nat) : (s.placeWord nbits w).agenda = .command :: s.agenda := rfl
@[simp] theorem State.placeWord_results (nbits w : Nat) : (s.placeWord nbits w).results = s.results := rfl

end Sys2Proof.Machine
end

