-- ==== Sys2Proof/Laws/Ops.lean ====
section
/-! SUPPORT. One lemma for each shared operation that says all it can do, cited in place of unfolding it. -/

namespace Sys2Proof

/-- The counter's increment stays within its width, and at the ceiling (spec 41_pulse_capture.md R136). -/
theorem satInc_eq_min {w v : Nat} (h : v < 2 ^ w) : satInc w v = min (v + 1) (2 ^ w - 1) := by
  unfold satInc
  split <;> omega

theorem le_satInc (w v : Nat) : v ≤ satInc w v := by
  unfold satInc
  split <;> omega

theorem satInc_lt {w v : Nat} (h : v < 2 ^ w) : satInc w v < 2 ^ w := by
  unfold satInc
  split <;> omega

/-- A difference modulo `2 ^ w` is a `w`-bit number. -/
theorem subMod_lt (w a b : Nat) : subMod w a b < 2 ^ w := by
  have hp : (0 : Int) < ((2 ^ w : Nat) : Int) := by exact_mod_cast Nat.two_pow_pos w
  have h0 := Int.emod_nonneg ((a : Int) - b) hp.ne'
  have h1 := Int.emod_lt_of_pos ((a : Int) - b) hp
  unfold subMod
  omega

/-- A difference modulo `2 ^ w`, as an integer. -/
theorem subMod_cast (w a b : Nat) : (subMod w a b : Int) = ((a : Int) - b) % ((2 ^ w : Nat) : Int) := by
  have hp : (0 : Int) < ((2 ^ w : Nat) : Int) := by exact_mod_cast Nat.two_pow_pos w
  exact Int.toNat_of_nonneg (Int.emod_nonneg _ hp.ne')

/-- With no wrap between two samples of the clock their difference is the true one (spec 41_pulse_capture.md R141
(a)). -/
theorem subMod_of_le {w a b : Nat} (hb : b ≤ a) (ha : a < 2 ^ w) : subMod w a b = a - b := by
  have h := subMod_cast w a b
  rw [Int.emod_eq_of_lt (by omega) (by omega)] at h
  omega

/-- Moving the clock on by `d` moves every difference on by `d`, modulo `2 ^ w`. -/
theorem subMod_add (w a b d : Nat) : subMod w ((a + d) % 2 ^ w) b = (subMod w a b + d) % 2 ^ w := by
  have h1 := subMod_cast w ((a + d) % 2 ^ w) b
  have h2 := subMod_cast w a b
  have : ((subMod w ((a + d) % 2 ^ w) b : Nat) : Int) = (((subMod w a b + d) % 2 ^ w : Nat) : Int) := by
    rw [h1, Int.natCast_emod, Int.natCast_emod, Int.natCast_add, Int.natCast_add, h2, Int.emod_sub_emod,
      Int.emod_add_emod]
    congr 1
    omega
  exact_mod_cast this

namespace Machine

variable (s : State)

/-- Firing always answers a next state: the rule's own if it is enabled, else the state as it was. -/
theorem fire_eq_next_iff {b : Bool} {after t : State} :
    fire b s after = .next t ↔ (b = true ∧ t = after) ∨ (b = false ∧ t = s) := by
  cases b <;> simp [fire, eq_comm]

@[simp] theorem fire_true (after : State) : fire true s after = .next after := rfl

@[simp] theorem fire_false (after : State) : fire false s after = .next s := rfl

@[simp] theorem cmdReady_iff : s.cmdReady = true ↔ s.seqPhase = .ready := by simp [State.cmdReady]

theorem cmdReady_false_iff : s.cmdReady = false ↔ s.seqPhase = .hold := by
  cases h : s.seqPhase <;> simp [State.cmdReady, h]

theorem releaseEnabled_iff :
    s.releaseEnabled = true ↔
      s.seqPhase = .hold ∧ s.cfg.holdNs ≤ subMod s.cfg.sampleW s.clock s.holdStart := by
  simp only [State.releaseEnabled, Bool.and_eq_true, decide_eq_true_eq]
  rfl

/-- The window of the log (spec 20_memory.md R63): the edge's slot is the counter less `SKIP`, where that is a slot. -/
theorem edgeSlot_eq_some_iff (i : Nat) :
    s.edgeSlot = some i ↔ i < s.cfg.logDepth ∧ s.cfg.skip + i = s.edgeCounter := by
  unfold State.edgeSlot
  split
  · simp only [Option.some.injEq]; omega
  · simp only [reduceCtorEq, false_iff]; omega

/-- What the log reads after an edge: the delta in the slot of the counter's value on entry, the rest as before. -/
theorem read_logAfterEdge (i : Nat) :
    s.logAfterEdge.read i =
      if i < s.cfg.logDepth ∧ s.cfg.skip + i = s.edgeCounter then subMod s.cfg.sampleW s.clock s.referenceTime
      else s.edgeLog.read i := by
  simp only [← edgeSlot_eq_some_iff]
  cases h : s.edgeSlot with
  | none => simp [State.logAfterEdge, h]
  | some j => simp [State.logAfterEdge, h, Memory.read_write, State.delta, State.now, eq_comm]

/-- An edge keeps the log's canonical form. -/
theorem wf_logAfterEdge (h : Memory.wf s.cfg s.edgeLog = true) : Memory.wf s.cfg s.logAfterEdge = true := by
  unfold State.logAfterEdge
  split
  · rename_i i hi
    exact Memory.wf_write ((edgeSlot_eq_some_iff s i).mp hi).1 (subMod_lt _ _ _) h
  · exact h

@[simp] theorem bit_eq_true_iff (i : Nat) : s.bit i = true ↔ s.cfg.threshNs < s.edgeLog.read i := by
  simp [State.bit]

theorem captureComplete_iff :
    s.captureComplete = true ↔ s.cfg.skip + s.cfg.logDepth ≤ s.edgeCounter := by
  simp [State.captureComplete]

/-- In the baseline a DECODE's status is OK (spec 42_bit_decoder.md R150). -/
theorem decodeStatus_baseline (h : s.cfg.baseline) : s.decodeStatus = .ok := by
  obtain ⟨h1, h2, h3⟩ := h
  simp [State.decodeStatus, h1, h2, h3]

/-- Putting one more bit behind others: the others count double. -/
theorem packMsbFirst_concat (bits : List Bool) (b : Bool) :
    packMsbFirst (bits ++ [b]) = 2 * packMsbFirst bits + b.toNat := by
  simp [packMsbFirst]

theorem packMsbFirst_lt (bits : List Bool) : packMsbFirst bits < 2 ^ bits.length := by
  induction bits using List.reverseRecOn with
  | nil => simp [packMsbFirst]
  | append_singleton bits b ih =>
    rw [packMsbFirst_concat, List.length_append, List.length_singleton, Nat.pow_succ]
    cases b <;> (simp; omega)

/-- Bit `k` of a packed number, from the least significant, is bit `k` from the end of the list. -/
theorem testBit_packMsbFirst (bits : List Bool) (k : Nat) (hk : k < bits.length) :
    (packMsbFirst bits).testBit k = bits[bits.length - 1 - k]'(by omega) := by
  induction bits using List.reverseRecOn generalizing k with
  | nil => simp at hk
  | append_singleton bits b ih =>
    rw [packMsbFirst_concat]
    cases k with
    | zero => cases b <;> simp [Nat.testBit_zero]
    | succ k =>
      have hk' : k < bits.length := by simpa using hk
      rw [Nat.testBit_succ]
      have : (2 * packMsbFirst bits + b.toNat) / 2 = packMsbFirst bits := by
        cases b <;> (simp; try omega)
      rw [this, ih k hk', List.getElem_append_left (by simp; omega)]
      congr 1
      simp; omega

/-- Each bit of a packed group of slots, in the order the sensor sent them (spec 42_bit_decoder.md R152). -/
theorem testBit_pack_bitsFrom (first n k : Nat) (hk : k < n) :
    (packMsbFirst (s.bitsFrom first n)).testBit (n - 1 - k) = s.bit (first + k) := by
  rw [testBit_packMsbFirst _ _ (by simp only [State.bitsFrom, List.length_map, List.length_range]; omega)]
  simp only [State.bitsFrom, List.getElem_map, List.getElem_range, List.length_map, List.length_range]
  congr 2; omega

/-- A group of `n` slots packs to an `n`-bit number. -/
theorem pack_bitsFrom_lt (first n : Nat) : packMsbFirst (s.bitsFrom first n) < 2 ^ n := by
  simpa [State.bitsFrom] using packMsbFirst_lt (s.bitsFrom first n)

/-- Outside the window an edge leaves the log alone (spec 41_pulse_capture.md R134, R135). -/
theorem logAfterEdge_outside
    (h : s.edgeCounter < s.cfg.skip ∨ s.cfg.skip + s.cfg.logDepth ≤ s.edgeCounter) :
    s.logAfterEdge = s.edgeLog := by
  unfold State.logAfterEdge
  split
  · rename_i i hi
    rw [edgeSlot_eq_some_iff] at hi
    omega
  · rfl

/-- A RELEASE is disabled in READY and before its time (spec 40_trigger_sequencer.md R112). -/
theorem releaseEnabled_eq_false
    (h : s.seqPhase = .ready ∨ subMod s.cfg.sampleW s.clock s.holdStart < s.cfg.holdNs) : s.releaseEnabled = false := by
  rw [← Bool.not_eq_true, releaseEnabled_iff]
  rintro ⟨h1, h2⟩
  rcases h with h | h
  · rw [h] at h1; cases h1
  · omega

/-- The rules of a `clk` period without `rst`, in either order. -/
theorem mem_periodTurns (p : Pins) (hp : p.rst = false) (t : Turn) :
    t ∈ s.periodTurns p ↔ t ∈ s.edgeTurns ∨ t ∈ s.commandTurns := by
  cases ho : s.cfg.sameInstantOrder <;> simp [State.periodTurns, hp, ho, or_comm]

end Machine
end Sys2Proof
end

