-- ==== Sys2Proof/Laws/Exec.lean ====
section
/-! SUPPORT. The equation of each arm of `exec`, and what `fetch` can give: cited in place of unfolding them. -/

namespace Sys2Proof.Machine

variable (s : State)

theorem exec_trigger : exec .trigger s = .next (if s.cmdReady then s.arm else s) := rfl

theorem exec_decode :
    exec .decode s =
      .next (if s.cmdReady then
        (s.conclude s.decodeStatus s.decodedReading).answer (decodeResult s.decodeStatus s.decodedReading)
      else s) := rfl

theorem exec_nop (b : Byte) : exec (.nop b) s = .next s := by simp [exec, execNop, fire]

theorem exec_read : exec .read s = .next (s.answer (.reading s.reading)) := rfl

theorem exec_edge : exec .edge s = .next s.capture := rfl

theorem exec_release : exec .release s = .next (if s.releaseEnabled then s.letGo else s) := rfl

theorem exec_advance (d : Nat) : exec (.advance d) s = .next (s.tick d) := rfl

theorem exec_reset : exec .reset s = .next s.restart := rfl

/-- Every byte decodes to a command. -/
theorem decodeByte_isCommand (c : Config) (op : Byte) : (decodeByte c op).isCommand = true := by
  unfold decodeByte; split_ifs <;> rfl

/-- With a turn on the agenda, `fetch` takes it. -/
theorem fetch_cons (t : Turn) (rest : List Turn) (h0 : s.cfg.setupOk = true) (h : s.agenda = t :: rest) :
    s.fetch = State.fetchTurn { s with agenda := rest } t := by simp [State.fetch, h0, h]

/-- With nothing on the agenda, `fetch` takes the block's own turn. -/
theorem fetch_nil (h0 : s.cfg.setupOk = true) (h : s.agenda = []) :
    s.fetch = match s.ownTurn with
      | some t => s.fetchTurn t
      | none => .wiring s := by
  cases ho : s.ownTurn <;> simp [State.fetch, h0, h, ho]

/-- What the command context's turn gives: nothing, or the decoded rule with only the port changed. -/
theorem fetchCommand_cases :
    (∃ i bs, decode s.cfg s.cmdPort = .ok (i, bs)
        ∧ s.fetchCommand = .rule i { s with cmdPort := if s.cmdReady then bs else s.cmdPort })
      ∨ s.fetchCommand = .wiring s := by
  unfold State.fetchCommand
  cases h : s.cmdPort with
  | nil => right; rfl
  | cons b bs =>
    left
    refine ⟨decodeByte s.cfg b, bs, rfl, ?_⟩
    cases hr : s.cmdReady <;> simp [decode, ← h]

/-- What a turn gives: a rule from a state in which only the port has changed, or a move of the port, the agenda and
the detector. -/
theorem fetchTurn_cases (t : Turn) :
    (∃ i u, s.fetchTurn t = .rule i u ∧ u = { s with cmdPort := u.cmdPort })
      ∨ (∃ u, s.fetchTurn t = .wiring u
          ∧ u = { s with agenda := u.agenda, cmdPort := u.cmdPort, detector := u.detector }) := by
  cases t with
  | command =>
    rcases fetchCommand_cases s with ⟨i, bs, _, h⟩ | h
    · exact .inl ⟨i, _, h, rfl⟩
    · exact .inr ⟨s, h, rfl⟩
  | present b => exact .inr ⟨_, rfl, rfl⟩
  | period p => exact .inr ⟨_, rfl, rfl⟩
  | read => exact .inl ⟨_, _, rfl, rfl⟩
  | edge => exact .inl ⟨_, _, rfl, rfl⟩
  | release => exact .inl ⟨_, _, rfl, rfl⟩
  | advance d => exact .inl ⟨_, _, rfl, rfl⟩
  | reset => exact .inl ⟨_, _, rfl, rfl⟩

/-- What `fetch` can give: a rule from a state in which only the agenda and the port have changed, a move of the
ports, or no step, the last only without setup. -/
theorem fetch_cases :
    (∃ i u, s.fetch = .rule i u ∧ u = { s with agenda := u.agenda, cmdPort := u.cmdPort })
      ∨ (∃ u, s.fetch = .wiring u
          ∧ u = { s with agenda := u.agenda, cmdPort := u.cmdPort, detector := u.detector })
      ∨ (s.cfg.setupOk = false ∧ s.fetch = .stuck .setupFailed) := by
  cases h0 : s.cfg.setupOk with
  | false => exact .inr (.inr ⟨rfl, by simp [State.fetch, h0]⟩)
  | true =>
    cases ha : s.agenda with
    | nil =>
      rw [fetch_nil s h0 ha]
      cases s.ownTurn with
      | none => exact .inr (.inl ⟨s, rfl, rfl⟩)
      | some t =>
        rcases fetchTurn_cases s t with ⟨i, u, h, e⟩ | ⟨u, h, e⟩
        · exact .inl ⟨i, u, h, by rw [e]⟩
        · exact .inr (.inl ⟨u, h, e⟩)
    | cons t rest =>
      rw [fetch_cons s t rest h0 ha]
      rcases fetchTurn_cases { s with agenda := rest } t with ⟨i, u, h, e⟩ | ⟨u, h, e⟩
      · exact .inl ⟨i, u, h, by rw [e]⟩
      · exact .inr (.inl ⟨u, h, by rw [e]⟩)

end Sys2Proof.Machine
end

