-- ==== Sys2Proof/Laws/PerInstr.lean ====
section
/-! SUPPORT. What is said of every instruction as syntax, one lemma a constructor. -/

namespace Sys2Proof.Laws.CommandByte

/-- Exactly the commands have an encoding, and it is one byte long (spec 30_encoding.md R90, R94). -/
def Statement (i : Instr) : Prop :=
  ∀ c : Config, (encode c i).isSome = i.isCommand ∧ ∀ bs, encode c i = some bs → bs.length = 1

theorem trigger : Statement .trigger := fun _ => ⟨rfl, by simp [encode]⟩
theorem decode : Statement .decode := fun _ => ⟨rfl, by simp [encode]⟩
theorem nop (b : Byte) : Statement (.nop b) := fun _ => ⟨rfl, by simp [encode]⟩
theorem read : Statement .read := fun _ => ⟨rfl, by simp [encode]⟩
theorem edge : Statement .edge := fun _ => ⟨rfl, by simp [encode]⟩
theorem release : Statement .release := fun _ => ⟨rfl, by simp [encode]⟩
theorem advance (d : Nat) : Statement (.advance d) := fun _ => ⟨rfl, by simp [encode]⟩
theorem reset : Statement .reset := fun _ => ⟨rfl, by simp [encode]⟩

end Sys2Proof.Laws.CommandByte
end

