-- ==== Sys2Proof/Tests/Slice0.lean ====
section
/-! SUPPORT. The model's own tests: each expected value is taken from the spec's tables (30_encoding.md R91) or its test
vectors (95_test_vectors.md), named in the comment.  Then the witnesses of the statements' hypotheses. -/

namespace Sys2Proof.Tests

open Sys2Proof Sys2Proof.Machine

/-- The outcome is a next state with the property. -/
def nextIs (o : Host.Outcome State Fault Refusal) (p : State → Bool) : Bool :=
  match o with
  | .next t => p t
  | .fault _ => false
  | .refused _ => false

/-- A log with 120000, a sensor 1, in the slots listed in rising order and nothing above the threshold elsewhere
(95_test_vectors.md section 3). -/
def onesIn (slots : List Nat) : Memory := slots.map fun k => (k, 120000)

/-- The slots of V-D9 that hold a 1: humidity `0x028C`, temperature `0x015F`. -/
def slotsVD9 : List Nat := [6, 8, 12, 13, 23, 25, 27, 28, 29, 30, 31]

/-- After V-T1: a hold since 5000. -/
def holdAt (clock : Nat) : State :=
  { State.reset with
    seqPhase := .hold, pinDir := .output, ctrlState := .triggered, triggeredOnce := true
    referenceTime := 5000, holdStart := 5000, clock := clock }

/-! ## Decoding: words written out from 30_encoding.md R91 -/

theorem test_decode_trigger : decodeTableWord 8 0b00110000 = some .trigger := by decide
theorem test_decode_decode : decodeTableWord 8 0b00110001 = some .decode := by decide
/-- V-C3: the line feed. -/
theorem test_decode_nop_0A : decodeTableWord 8 0b00001010 = some (.nop 0x0A#8) := by decide
/-- V-C4: `0x30` with bit 1 flipped. -/
theorem test_decode_nop_32 : decodeTableWord 8 0b00110010 = some (.nop 0x32#8) := by decide
/-- The five operations of R94 have no byte: the decoder gives none from no byte, and the encoder none to them. -/
theorem test_no_byte : decode Config.default [] = .error .noByte := by decide
theorem test_encode_uncoded :
    [Instr.read, .edge, .release, .advance 5, .reset].map (encode Config.default) = [none, none, none, none, none] := by
  decide
theorem test_encode_commands :
    [Instr.trigger, .decode, .nop 0x41#8].map (encode Config.default) = [some [0x30#8], some [0x31#8], some [0x41#8]] := by
  decide

/-! ## Well-formedness refuses -/

theorem test_wf_refuses_nop_trigger : Instr.wf Config.default (.nop 0x30#8) = false := by decide
theorem test_wf_refuses_nop_decode : Instr.wf Config.default (.nop 0x31#8) = false := by decide
theorem test_wf_admits_nop : Instr.wf Config.default (.nop 0x32#8) = true := by decide
theorem test_memory_wf_refuses_order : Memory.wf Config.default [(3, 1), (2, 1)] = false := by decide
theorem test_memory_wf_refuses_repeat : Memory.wf Config.default [(3, 1), (3, 1)] = false := by decide
theorem test_memory_wf_refuses_slot_40 : Memory.wf Config.default [(40, 1)] = false := by decide
theorem test_memory_wf_refuses_unlisted : Memory.wf Config.default [(3, 0)] = false := by decide
theorem test_memory_wf_admits : Memory.wf Config.default [(3, 1), (39, 7)] = true := by decide
theorem test_config_wf_refuses_same_bytes : Config.wf { cmdDecode := 0x30#8 } = false := by decide
theorem test_config_wf_refuses_log : Config.wf { logInit := [(40, 1)] } = false := by decide
theorem test_memory_wf_refuses_wide_sample : Memory.wf Config.default [(3, 18446744073709551616)] = false := by decide
theorem test_config_wf_refuses_short_log : Config.wf { logDepth := 39 } = false := by decide
theorem test_config_wf_refuses_times :
    Config.wf { sampleW := 16 } = false ∧ Config.wf { sampleW := 16, threshNs := 5 } = false := by decide
theorem test_config_wf_admits : Config.wf { logDepth := 56, fieldW := 24, sampleW := 32, cntW := 6 } = true := by decide
theorem test_config_wf_refuses_skip : Config.wf { skip := 4294967256 } = false := by decide

/-! ## Operations: the vectors of 95_test_vectors.md -/

/-- V-T1. -/
theorem test_trigger :
    nextIs (exec .trigger { State.reset with clock := 5000 }) (fun t =>
      t.edgeCounter == 0 && t.referenceTime == 5000 && t.holdStart == 5000 && t.pinDir == .output
        && t.seqPhase == .hold && t.ctrlState == .triggered && t.triggeredOnce) = true := by decide
/-- V-T7: accepted in Triggered. -/
theorem test_retrigger :
    nextIs (exec .trigger { State.reset with ctrlState := .triggered, edgeCounter := 19 }) (fun t =>
      t.edgeCounter == 0 && t.ctrlState == .triggered && t.seqPhase == .hold) = true := by decide
/-- V-T2 and V-T3. -/
theorem test_release_bound :
    (nextIs (exec .release (holdAt 1004999)) (fun t => t == holdAt 1004999)
      && nextIs (exec .release (holdAt 1005000)) (fun t =>
        t.pinDir == .input && t.seqPhase == .ready && t.referenceTime == 5000 && t.ctrlState == .triggered))
      = true := by decide
/-- V-T6: the clock has wrapped in the hold. -/
theorem test_release_wrap :
    nextIs (exec .release { holdAt 600000 with holdStart := 18446744073709151616 }) (fun t =>
      t.seqPhase == .ready) = true := by decide
/-- V-E4: the last logged sample. -/
theorem test_edge_last_slot :
    nextIs (exec .edge
        { State.reset with edgeCounter := 42, referenceTime := 4957500, clock := 5033500 }) (fun t =>
      t.edgeLog == [(39, 76000)] && t.edgeCounter == 43 && t.referenceTime == 5033500) = true := by decide
/-- V-E8: across a wrap of the clock; V-E6: the counter's ceiling. -/
theorem test_edge_wrap_and_ceiling :
    (nextIs (exec .edge
        { State.reset with edgeCounter := 5, referenceTime := 18446744073709551516, clock := 50 }) (fun t =>
      t.edgeLog == [(2, 150)] && t.referenceTime == 50)
      && nextIs (exec .edge { State.reset with edgeCounter := 4294967295, clock := 9 }) (fun t =>
        t.edgeLog == [] && t.edgeCounter == 4294967295 && t.referenceTime == 9)) = true := by decide
/-- V-E10. -/
theorem test_advance :
    nextIs (exec (.advance 1000000) { State.reset with clock := 5000 }) (fun t =>
      t.clock == 1005000) = true := by decide
/-- R131: modulo 2^64. -/
theorem test_advance_wraps :
    nextIs (exec (.advance 7) { State.reset with clock := 18446744073709551615 }) (fun t =>
      t.clock == 6) = true := by decide
/-- V-H6: with `H_CHECKSUM` the checksum `0xEE` is OK. -/
theorem test_decode_checksum_ok :
    nextIs (exec .decode
        { State.reset with
          cfg := { hChecksum := true }, edgeLog := onesIn (slotsVD9 ++ [32, 33, 34, 36, 37, 38]) }) (fun t =>
      t.reading == ⟨652, 351⟩ && t.results == [.decoded .ok (some ⟨652, 351⟩)]) = true := by decide
/-- V-H7: `0xEF` is not, and the Reading keeps its old value. -/
theorem test_decode_checksum_fail :
    nextIs (exec .decode
        { State.reset with
          cfg := { hChecksum := true }, edgeLog := onesIn (slotsVD9 ++ [32, 33, 34, 36, 37, 38, 39]) }) (fun t =>
      t.reading == ⟨0, 0⟩ && t.results == [.decoded .checksumFail none]) = true := by decide
/-- V-D3, V-D2 and V-D6 together: 115001 in slot 0 is bit 15 of the humidity, 115000 in slot 1 is 0, 200000 in slot 16
is bit 15 of the temperature. -/
theorem test_decode_threshold :
    nextIs (exec .decode
        { State.reset with
          ctrlState := .triggered
          edgeLog := [(0, 115001), (1, 115000), (16, 200000)] }) (fun t =>
      t.reading == ⟨32768, 32768⟩ && t.ctrlState == .idle && t.decStatus == .ok) = true := by decide
/-- V-H3 and V-H4: with `H_COMPLETE` a count of 42 is INCOMPLETE, code 1, and keeps the Reading; 43 is OK. -/
theorem test_decode_incomplete_at_42 :
    (nextIs (exec .decode
        { State.reset with
          cfg := { hComplete := true }, edgeCounter := 42, edgeLog := onesIn slotsVD9, reading := ⟨7, 9⟩ }) (fun t =>
      t.decStatusO == 1#2 && t.reading == ⟨7, 9⟩ && t.ctrlState == .idle && t.results == [.decoded .incomplete none])
      && nextIs (exec .decode
        { State.reset with
          cfg := { hComplete := true }, edgeCounter := 43, edgeLog := onesIn slotsVD9, reading := ⟨7, 9⟩ }) (fun t =>
      t.decStatusO == 0#2 && t.reading == ⟨652, 351⟩)) = true := by decide
/-- V-H10: the first failing check. -/
theorem test_decode_rejected_first :
    nextIs (exec .decode
        { State.reset with cfg := { hComplete := true, hChecksum := true, hRejectUntriggered := true } }) (fun t =>
      t.decStatus == .rejected && t.decStatusO == 3#2) = true := by decide
/-- V-C8. -/
theorem test_nop :
    nextIs (exec (.nop 0x41#8) { State.reset with ctrlState := .triggered }) (fun t =>
      t == { State.reset with ctrlState := .triggered }) = true := by decide
/-- V-C6, in the hold (V-T9). -/
theorem test_read :
    nextIs (exec .read { holdAt 6000 with reading := ⟨652, 351⟩ }) (fun t =>
      t.results == [.reading ⟨652, 351⟩] && t.reading == ⟨652, 351⟩ && t.seqPhase == .hold) = true := by
  decide
/-- V-R2: a reset cuts the hold short, and the clock is not written. -/
theorem test_reset :
    nextIs (exec .reset { holdAt 405000 with edgeLog := [(3, 9)], edgeCounter := 7 }) (fun t =>
      t == { State.reset with clock := 405000 }) = true := by decide

/-- V-X3 and V-X4: the edge first, DECODE decodes the new sample in slot 31; DECODE first, the old one. -/
theorem test_edge_and_decode_orders :
    let s : State := { State.reset with edgeCounter := 34, referenceTime := 5000, clock := 125000 }
    (nextIs (runRules [.edge, .decode] s) (fun t => t.edgeLog == [(31, 120000)] && t.reading == ⟨0, 1⟩)
      && nextIs (runRules [.decode, .edge] s) (fun t => t.edgeLog == [(31, 120000)] && t.reading == ⟨0, 0⟩))
      = true := by decide

/-! ## Steps -/

/-- V-C1 through the port: the byte is consumed and TRIGGER runs. -/
theorem test_step_runs_the_byte :
    nextIs (step (State.reset.withFetchWord 8 0x30)) (fun t => t.seqPhase == .hold && t.cmdPort == []) = true := by
  decide
/-- V-T5: a byte presented in the hold waits. -/
theorem test_step_byte_waits :
    nextIs (step ((holdAt 6000).withFetchWord 8 0x31)) (fun t =>
      t == { holdAt 6000 with cmdPort := [0x31#8] }) = true := by decide
/-- 60_exceptions.md R224. -/
theorem test_step_without_setup :
    (match step { State.reset with cfg := { setupOk := false } } with
      | .fault .setupFailed => true
      | _ => false) = true := by decide
/-- V-X1 in a clocked period: the edge first. -/
theorem test_period_edge_first :
    nextIs (step
        { State.reset with
          detector := ⟨true, true, false⟩, cmdPort := [0x30#8], agenda := [.period ⟨false, true⟩] }) (fun t =>
      t.agenda == [.edge, .command] && t.detector == ⟨true, true, true⟩) = true := by decide

/-! ## Witnesses: for each statement, states and operands that meet each of its hypotheses -/

/-- A reset state with something on the agenda. -/
def withTurn (t : Turn) (bytes : List Byte) : State :=
  { State.reset with agenda := [t], cmdPort := bytes }

/-- One reply of the sensor with a RELEASE before it: 43 edges. -/
def fullReply : List Instr := [.advance 1000000, .release] ++ List.replicate 43 .edge

theorem witness_TriggerArmsCapture : State.reset.seqPhase = .ready ∧ (holdAt 6000).seqPhase = .hold := by decide

theorem witness_ReleaseEndsHold_enabled :
    (holdAt 1005000).seqPhase = .hold ∧ (holdAt 1005000).cfg.setupOk = true ∧ (holdAt 1005000).agenda = []
      ∧ (holdAt 1005000).cfg.holdNs ≤ subMod 64 (holdAt 1005000).clock (holdAt 1005000).holdStart := by decide
theorem witness_ReleaseEndsHold_disabled :
    State.reset.seqPhase = .ready
      ∧ subMod 64 (holdAt 1004999).clock (holdAt 1004999).holdStart < (holdAt 1004999).cfg.holdNs := by decide
theorem witness_ReleaseEndsHold_clocked :
    let s : State := { holdAt 1004999 with cfg := { tClk := 8, clkGran := 2 } }
    s.seqPhase = .hold ∧ (Pins.mk false true).rst = false ∧ Turn.release ∉ s.periodTurns ⟨false, true⟩
      ∧ ClockedPace s.cfg 10 ∧ subMod s.cfg.sampleW s.clock s.holdStart + 10 < 2 ^ s.cfg.sampleW := by
  unfold ClockedPace; decide

theorem witness_ReleaseNeedsItsTrigger :
    State.reset.seqPhase = .ready ∧ ∀ i ∈ [Instr.edge, .release, .decode], i ≠ .trigger := by decide

theorem witness_HoldKeepsCommandsWaiting_hold :
    let s : State := { holdAt 6000 with agenda := [.command], cmdPort := [0x31#8, 0x30#8] }
    s.seqPhase = .hold ∧ Instr.decode.isCommand = true ∧ s.cfg.setupOk = true ∧ s.agenda = .command :: []
      ∧ s.cmdPort = 0x31#8 :: [0x30#8] := by decide
theorem witness_HoldKeepsCommandsWaiting_ready :
    let s := withTurn .command [0x31#8]
    s.cfg.setupOk = true ∧ s.seqPhase = .ready ∧ s.agenda = .command :: [] ∧ s.cmdPort = 0x31#8 :: [] := by decide

theorem witness_AdvanceMovesOnlyTheClock :
    ∃ t, exec (.advance 5) State.reset = .next t ∧ t.clock ≠ State.reset.clock := ⟨_, rfl, by decide⟩

theorem witness_EdgeCapturesDelta_outside :
    2 < State.reset.cfg.skip ∧ ¬ 3 < State.reset.cfg.skip
      ∧ State.reset.cfg.skip + State.reset.cfg.logDepth ≤ 43
      ∧ ¬ State.reset.cfg.skip + State.reset.cfg.logDepth ≤ 42 := by decide
theorem witness_EdgeCapturesDelta_inside :
    39 < State.reset.cfg.logDepth ∧ 42 = State.reset.cfg.skip + 39 ∧ 3 = State.reset.cfg.skip + 0 := by decide

theorem witness_ExtraEdgesLeaveTheLog :
    State.captureComplete { State.reset with edgeCounter := 43 } = true ∧ withinCycle [.edge, .decode, .edge] = true := by
  decide

theorem witness_FullCaptureHoldsFortyDeltas :
    State.reset.seqPhase = .ready ∧ State.reset.cfg.wf = true ∧ 0 < State.reset.cfg.skip ∧ withinCycle fullReply = true
      ∧ (edgeTimes State.reset.cfg.sampleW fullReply State.reset.clock).length
        = State.reset.cfg.skip + State.reset.cfg.logDepth ∧ 39 < State.reset.cfg.logDepth := by decide

theorem witness_UnreachedSlotsStayOld :
    State.reset.seqPhase = .ready ∧ withinCycle [.edge, .advance 5, .edge, .edge] = true
      ∧ (edgeTimes State.reset.cfg.sampleW [.edge, .advance 5, .edge, .edge] State.reset.clock).length
        ≤ State.reset.cfg.skip + 0 := by decide

theorem witness_CounterCeilingUnobservable :
    2 ^ State.reset.cfg.cntW - 1 = 4294967295 ∧ State.reset.cfg.skip + State.reset.cfg.logDepth ≤ 43
      ∧ State.reset.cfg.skip + State.reset.cfg.logDepth ≤ 4294967295 := by decide

theorem witness_DeltaIsElapsedTime_invariant : State.reset.TimestampsPast ∧ ClkNoWrap (.advance 5) State.reset := by
  refine ⟨by unfold State.TimestampsPast; decide, fun d hd => ?_⟩
  rw [← Instr.advance.inj hd]
  decide
theorem witness_DeltaIsElapsedTime_delta :
    let s : State := { State.reset with edgeCounter := 42, clock := 9 }
    s.TimestampsPast ∧ s.WidthsFit ∧ 39 < s.cfg.logDepth ∧ s.edgeCounter = s.cfg.skip + 39 := by
  unfold State.TimestampsPast State.WidthsFit; decide

theorem witness_OtherRulesDoNotDisturbCapture :
    withinCycle [.edge, .read, .nop 0#8, .decode, .release, .advance 3, .edge] = true := by decide

theorem witness_HoldWithoutEdgesKeepsTheTriggerTime :
    State.reset.seqPhase = .ready ∧ withinCycle [.advance 5, .decode] = true
      ∧ (∀ i ∈ [Instr.advance 5, .decode], i ≠ .release)
      ∧ alongRun EnvNoEdgeWhileDriven [.advance 5, .decode] State.reset.arm := by
  refine ⟨by decide, by decide, by decide, ?_⟩
  exact ⟨nofun, nofun, trivial⟩

theorem witness_ReplyCompletesTheCapture :
    (holdAt 1005000).seqPhase = .hold ∧ (holdAt 1005000).edgeCounter = 0 ∧ (holdAt 1005000).cfg.wf = true
      ∧ (holdAt 1005000).cfg.skip + (holdAt 1005000).cfg.logDepth = 43
      ∧ withinCycle (List.replicate 43 .edge) = true ∧ (∀ i ∈ List.replicate 43 Instr.edge, i ≠ .release)
      ∧ envReply43 (.release :: List.replicate 43 .edge) = true := by decide

theorem witness_DecodeReportsAndStores :
    State.reset.seqPhase = .ready ∧ (holdAt 6000).seqPhase = .hold ∧ 15 < State.reset.cfg.fieldW
      ∧ Config.default.cmdTrigger ≠ Config.default.cmdDecode := by decide

theorem witness_BaselinePackingIsMsbFirst :
    State.reset.seqPhase = .ready ∧ State.reset.cfg.baseline ∧ State.reset.cfg.fieldW = 16 := by
  unfold Config.baseline; decide

theorem witness_ThresholdIsStrictAndUnsigned : State.reset.cfg.threshNs = 115000 := by decide

theorem witness_BaselineReadingDependsOnSlotsOnly :
    let s : State := { State.reset with edgeLog := [(31, 5)] }
    let u : State := { State.reset with edgeLog := [(31, 5), (32, 9)], edgeCounter := 7 }
    s.seqPhase = .ready ∧ u.seqPhase = .ready ∧ s.cfg.baseline ∧ u.cfg.baseline ∧ s.cfg.threshNs = u.cfg.threshNs
      ∧ s.cfg.fieldW = u.cfg.fieldW ∧ ∀ i < 2 * s.cfg.fieldW, s.edgeLog.read i = u.edgeLog.read i := by
  unfold Config.baseline; decide

/-- A TRIGGER, its RELEASE and the first three edges of the reply. -/
theorem witness_DecodeIsIdempotent_trigger :
    let is : List Instr := [.trigger, .advance 1000000, .release, .edge, .edge, .edge]
    State.reset.seqPhase = .ready ∧ State.reset.cfg.baseline ∧ alongRun WritesNoFieldSlot is State.reset
      ∧ nextIs (runRules is State.reset) (fun u => u.cmdReady) = true := by
  refine ⟨by decide, by unfold Config.baseline; decide, ?_, by decide⟩
  exact ⟨⟨nofun, nofun⟩, ⟨nofun, nofun⟩, ⟨nofun, nofun⟩, ⟨nofun, fun _ => by decide⟩, ⟨nofun, fun _ => by decide⟩,
    ⟨nofun, fun _ => by decide⟩, trivial⟩
/-- An edge that writes slot 32, a checksum slot, and one past the window. -/
theorem witness_DecodeIsIdempotent_edges :
    alongRun WritesNoFieldSlot [.edge] { State.reset with edgeCounter := 35, clock := 9 }
      ∧ alongRun WritesNoFieldSlot [.edge] { State.reset with edgeCounter := 43, clock := 9 }
      ∧ ¬ alongRun WritesNoFieldSlot [.edge] { State.reset with edgeCounter := 34, clock := 9 }
      ∧ ¬ alongRun WritesNoFieldSlot [.edge] { State.reset with edgeCounter := 3, clock := 9 } := by
  exact ⟨⟨⟨nofun, fun _ => by decide⟩, trivial⟩, ⟨⟨nofun, fun _ => by decide⟩, trivial⟩,
    fun h => absurd (h.1.2 rfl) (by decide), fun h => absurd (h.1.2 rfl) (by decide)⟩
theorem witness_DecodeIsIdempotent_same_log :
    let s : State := { State.reset with edgeLog := [(31, 5)], edgeCounter := 9 }
    let u : State := { State.reset with edgeLog := [(31, 5)], edgeCounter := 9, clock := 4, ctrlState := .triggered }
    s.seqPhase = .ready ∧ u.seqPhase = .ready ∧ s.cfg = u.cfg ∧ s.triggeredOnce = u.triggeredOnce
      ∧ s.edgeCounter = u.edgeCounter ∧ ∀ i < 2 * s.cfg.fieldW + 8, s.edgeLog.read i = u.edgeLog.read i := by decide

theorem witness_DecodeReturnsTheCurrentCycle :
    State.reset.seqPhase = .ready ∧ State.reset.cfg.wf = true ∧ 0 < State.reset.cfg.skip ∧ State.reset.cfg.baseline
      ∧ withinCycle fullReply = true
      ∧ State.reset.cfg.skip + State.reset.cfg.logDepth
        ≤ (edgeTimes State.reset.cfg.sampleW fullReply State.reset.clock).length
      ∧ 15 < State.reset.cfg.fieldW
      ∧ nextIs (runRules (.trigger :: fullReply) State.reset) (fun t => t.cmdReady) = true := by
  unfold Config.baseline; decide

theorem witness_CompletenessCountsTheCycle :
    let s : State := { State.reset with cfg := { hComplete := true } }
    s.seqPhase = .ready ∧ s.cfg.wf = true ∧ s.cfg.hComplete = true
      ∧ withinCycle [.edge, .advance 1000000, .release] = true
      ∧ nextIs (runRules (.trigger :: [.edge, .advance 1000000, .release]) s) (fun t => t.cmdReady) = true := by decide

theorem witness_WaitingHostIsNeverIncomplete :
    HostWaits .decode { State.reset with cfg := { hComplete := true }, edgeCounter := 43 } := fun _ => by decide

theorem witness_ReadAnswersTheStoredPair :
    ∀ i ∈ [Instr.trigger, .edge, .read], i ≠ .decode ∧ i ≠ .reset := by decide

theorem witness_NopOnlyConsumesItsByte :
    let s := withTurn .command [0x0A#8, 0x30#8]
    s.cfg.setupOk = true ∧ s.seqPhase = .ready ∧ s.agenda = .command :: [] ∧ s.cmdPort = 0x0A#8 :: [0x30#8]
      ∧ 0x0A#8 ≠ s.cfg.cmdTrigger ∧ 0x0A#8 ≠ s.cfg.cmdDecode := by decide

theorem witness_ControllerTransitions : ∃ t, exec .decode State.reset = .next t := ⟨_, rfl⟩

theorem witness_ReadPortLayout : 65535 < 2 ^ 16 ∧ (Reading.mk 652 351).humidity < 2 ^ 16 := by decide

theorem witness_ResetRestoresEveryRegister :
    let s := withTurn (.period ⟨true, false⟩) [0x30#8]
    s.cfg.setupOk = true ∧ s.agenda = .period ⟨true, false⟩ :: [] ∧ (Pins.mk true false).rst = true := by decide

theorem witness_EncodedInstructionDecodesBack :
    Config.default.wf = true ∧ Instr.wf Config.default (.nop 0x0A#8) = true
      ∧ encode Config.default (.nop 0x0A#8) = some [0x0A#8] := by decide

theorem witness_StepRunsTheSelectedRule_command :
    let s := withTurn .command [0x31#8, 0x30#8]
    s.cfg.setupOk = true ∧ s.agenda = .command :: [] ∧ decode s.cfg s.cmdPort = .ok (.decode, [0x30#8]) := by decide
theorem witness_StepRunsTheSelectedRule_events :
    [Turn.read, .edge, .release, .advance 5, .reset, .present 0x30#8].map (fun t => (withTurn t []).agenda)
      = [[.read], [.edge], [.release], [.advance 5], [.reset], [.present 0x30#8]] := by decide
theorem witness_StepRunsTheSelectedRule_word :
    State.reset.cfg.setupOk = true ∧ State.reset.seqPhase = .ready ∧ 255 < 256 := by decide

theorem witness_StepIsOneWholeRule_rule : ∃ t, step (withTurn .edge []) = .next t := ⟨_, rfl⟩
theorem witness_StepIsOneWholeRule_ports : ∃ t, step (withTurn (.present 0x30#8) []) = .next t := ⟨_, rfl⟩

theorem witness_BlockDrainsByItself_release :
    let s : State := { holdAt 1005000 with cmdPort := [0x31#8] }
    s.cfg.setupOk = true ∧ s.agenda = [] ∧ s.releaseEnabled = true ∧ s.cmdPort = 0x31#8 :: [] := by decide
theorem witness_BlockDrainsByItself_byte :
    let s : State := { State.reset with cmdPort := [0x31#8] }
    s.cfg.setupOk = true ∧ s.agenda = [] ∧ s.seqPhase = .ready ∧ s.cmdPort = 0x31#8 :: [] := by decide
theorem witness_BlockDrainsByItself_idle :
    (holdAt 1004999).releaseEnabled = false ∧ (holdAt 1004999).seqPhase = .hold
      ∧ State.reset.releaseEnabled = false ∧ State.reset.cmdPort = [] ∧ State.reset.ended = true := by decide

theorem witness_SameInstantOrdersDiffer :
    let s : State := { State.reset with detector := ⟨true, true, false⟩, cmdPort := [0x30#8] }
    s.seqPhase = .ready ∧ 1 < 2 ^ s.cfg.cntW ∧ 0 < s.cfg.skip ∧ (Pins.mk false true).rst = false
      ∧ s.detector.rising = true ∧ s.releaseEnabled = false ∧ s.cmdValid = true := by decide
/-- V-X3 for the temperature, slot 31, and slot 0 for the humidity. -/
theorem witness_SameInstantOrdersDiffer_decode :
    let s : State := { State.reset with edgeCounter := 34 }
    s.seqPhase = .ready ∧ s.cfg.baseline ∧ 31 < s.cfg.logDepth ∧ 31 < 2 * s.cfg.fieldW
      ∧ s.edgeCounter = s.cfg.skip + 31 ∧ s.cfg.fieldW ≤ 31 ∧ 0 < s.cfg.fieldW ∧ 3 = s.cfg.skip + 0 := by
  unfold Config.baseline; decide

theorem witness_DetectorRaisesEachRiseOnce :
    let s := withTurn (.period ⟨false, true⟩) []
    s.cfg.setupOk = true ∧ s.agenda = .period ⟨false, true⟩ :: [] ∧ (Pins.mk false true).rst = false := by decide

theorem witness_NoOperationStops :
    State.reset.cfg.setupOk = true ∧ State.cfg { State.reset with cfg := { setupOk := false } } = { setupOk := false } := by
  decide

theorem witness_RegistersHaveTheirWriters :
    ∃ t, exec .trigger State.reset = .next t ∧ Instr.trigger ≠ .reset ∧ t.seqPhase ≠ State.reset.seqPhase :=
  ⟨_, rfl, by decide, by decide⟩

theorem witness_LineIsDrivenExactlyInTheHold : (holdAt 6000).ControlCoherent := by
  unfold State.ControlCoherent; decide

theorem witness_StepKeepsTheLogCanonical :
    State.LogCanonical { withTurn .edge [] with edgeCounter := 3, clock := 7 }
      ∧ nextIs (step { withTurn .edge [] with edgeCounter := 3, clock := 7 }) (fun t =>
        t.edgeLog == [(0, 7)]) = true := by
  unfold State.LogCanonical; decide

theorem witness_StepKeepsControlCoherent :
    (withTurn .command [0x30#8]).ControlCoherent ∧ ∃ t, step (withTurn .command [0x30#8]) = .next t := by
  exact ⟨by unfold State.ControlCoherent; decide, _, rfl⟩

theorem witness_BaselineStatusStaysOk :
    State.reset.cfg.baseline ∧ State.reset.decStatus = .ok ∧ ∃ t, step (withTurn .command [0x31#8]) = .next t := by
  exact ⟨by unfold Config.baseline; decide, rfl, _, rfl⟩

theorem witness_ClockDifferenceIsModular :
    9 < 2 ^ 4 ∧ (9 + 12) % 2 ^ 4 = 5 % 2 ^ 4 ∧ subMod 4 5 12 = 9 ∧ 2 ≤ 5 ∧ 5 < 2 ^ 4 := by decide

theorem witness_OutputPortsShowTheRegisters :
    [DecStatus.ok, .incomplete, .checksumFail, .rejected].map (fun d =>
        State.decStatusO { State.reset with decStatus := d }) = [0#2, 1#2, 2#2, 3#2]
      ∧ [CtrlState.idle, .triggered].map (fun c =>
        State.ctrlStateO { State.reset with ctrlState := c }) = [0#1, 1#1] := by decide

theorem witness_StepKeepsTheWidths :
    let s : State := { withTurn (.advance 7) [] with clock := 18446744073709551615, edgeCounter := 4294967295 }
    s.WidthsFit ∧ nextIs (step s) (fun t => t.clock == 6) = true := by
  unfold State.WidthsFit; decide

end Sys2Proof.Tests
end

section
/-! PROOFS. The scope of the spec (00_scope.md): the defaults of the parameters and the clock difference. -/

namespace Sys2Proof

/-- The log of the default configuration holds no entry, so each slot reads as an unlisted one does (spec R8). -/
theorem Config.default_logInit_read (k : Nat) : Config.default.logInit.read k = Memory.unlisted :=
  Memory.read_nil k

/-- Adding the earlier sample to the difference gives the later one back, modulo `2 ^ w` (spec R10). -/
theorem subMod_add_modEq (w a b : Nat) : subMod w a b + b ≡ a [MOD 2 ^ w] := by
  have h : (subMod w a b : Int) ≡ (a : Int) - b [ZMOD ((2 ^ w : Nat) : Int)] := by
    rw [subMod_cast]
    exact Int.mod_modEq _ _
  have hadd := h.add_right (b : Int)
  rw [sub_add_cancel, ← Int.natCast_add] at hadd
  exact Int.natCast_modEq_iff.mp hadd

/-- Only the difference does so among the `w`-bit numbers: `b` cancels, and two numbers below `2 ^ w` that agree
modulo `2 ^ w` are equal. -/
theorem eq_subMod_of_add_modEq {w a b d : Nat} (hd : d < 2 ^ w) (h : d + b ≡ a [MOD 2 ^ w]) :
    d = subMod w a b := by
  have hsum : d + b ≡ subMod w a b + b [MOD 2 ^ w] := h.trans (subMod_add_modEq w a b).symm
  exact (Nat.ModEq.add_right_cancel' b hsum).eq_of_lt_of_lt hd (subMod_lt w a b)

/-- Settles O45: every default is the value written in `Config`, and the log's default is the empty one. -/
theorem parametersHaveTheirDefaults : Obligations.ParametersHaveTheirDefaults :=
  ⟨rfl, rfl, rfl, rfl, rfl, rfl, rfl, rfl, rfl, Config.default_logInit_read, rfl, rfl, rfl, rfl, rfl⟩

/-- Settles O46, from the bound of the difference, its congruence, that no other number meets both, and the case with
no wrap. -/
theorem clockDifferenceIsModular : Obligations.ClockDifferenceIsModular := fun w a b =>
  ⟨subMod_lt w a b, subMod_add_modEq w a b, fun _ => eq_subMod_of_add_modEq, subMod_of_le⟩

end Sys2Proof
end

section
/-! PROOFS. What a rule can do and what a step can do, said once: the facts every invariant is derived from. -/

namespace Sys2Proof.Machine

variable {s t : State}

/-- Every way the rule of an instruction fires: what it demands and what it leaves (the writes of
40_trigger_sequencer.md R110 and R112, 44_hardening_options.md R197, 41_pulse_capture.md R131 and R133,
43_store_and_controller.md R171 and R172, 70_reset_and_hazards.md R240), with the two ways of not being enabled
(log 6). -/
inductive Fires (s : State) : Instr → State → Prop
  | waits {i : Instr} (hi : i.isCommand = true) (hs : s.seqPhase = .hold) : Fires s i s
  | trigger (hs : s.seqPhase = .ready) : Fires s .trigger s.arm
  | decode (hs : s.seqPhase = .ready) :
    Fires s .decode ((s.conclude s.decodeStatus s.decodedReading).answer (decodeResult s.decodeStatus s.decodedReading))
  | nop (b : Byte) : Fires s (.nop b) s
  | read : Fires s .read (s.answer (.reading s.reading))
  | edge : Fires s .edge s.capture
  | holds (hs : s.releaseEnabled = false) : Fires s .release s
  | release (hs : s.releaseEnabled = true) : Fires s .release s.letGo
  | advance (d : Nat) : Fires s (.advance d) (s.tick d)
  | reset : Fires s .reset s.restart

/-- A command waits in HOLD, whichever it is (10_state.md R39). -/
theorem exec_command_of_hold {i : Instr} (hi : i.isCommand = true) (hs : s.seqPhase = .hold) :
    exec i s = .next s := by
  have hr : s.cmdReady = false := (cmdReady_false_iff s).mpr hs
  cases i with
  | trigger => simp [exec_trigger, hr]
  | decode => simp [exec_decode, hr]
  | nop b => exact exec_nop s b
  | read | edge | release | advance d | reset => cases hi

/-- `exec` answers exactly what `Fires` says. -/
theorem exec_eq_next_iff_fires {i : Instr} : exec i s = .next t ↔ Fires s i t := by
  constructor
  · intro h
    cases i with
    | trigger =>
      obtain ⟨hr, rfl⟩ | ⟨hr, rfl⟩ := (fire_eq_next_iff s).mp h
      · exact .trigger ((cmdReady_iff s).mp hr)
      · exact .waits rfl ((cmdReady_false_iff t).mp hr)
    | decode =>
      obtain ⟨hr, rfl⟩ | ⟨hr, rfl⟩ := (fire_eq_next_iff s).mp h
      · exact .decode ((cmdReady_iff s).mp hr)
      · exact .waits rfl ((cmdReady_false_iff t).mp hr)
    | nop b => rw [exec_nop] at h; cases h; exact .nop b
    | read => cases h; exact .read
    | edge => cases h; exact .edge
    | release =>
      obtain ⟨hr, rfl⟩ | ⟨hr, rfl⟩ := (fire_eq_next_iff s).mp h
      · exact .release hr
      · exact .holds hr
    | advance d => cases h; exact .advance d
    | reset => cases h; exact .reset
  · intro h
    cases h with
    | waits hi hs => exact exec_command_of_hold hi hs
    | trigger hs => simp [exec_trigger, hs]
    | decode hs => simp [exec_decode, hs]
    | nop b => exact exec_nop s b
    | holds hs | release hs => simp [exec_release, hs]
    | read | edge | advance d | reset => rfl

/-- A property that the ports, the agenda and the detector do not matter to, and that every rule keeps, is kept by every
step. -/
theorem step_keeps {P : State → Prop}
    (ports : ∀ (s : State) (a : List Turn) (c : List Byte) (e : EdgeDetector),
      P s → P { s with agenda := a, cmdPort := c, detector := e })
    (rules : ∀ {i : Instr} {s t : State}, P s → Fires s i t → P t)
    (hs : P s) (h : step s = .next t) : P t := by
  unfold step at h
  obtain ⟨i, u, hf, hu⟩ | ⟨u, hf, hu⟩ | ⟨-, hf⟩ := fetch_cases s
  · have hPu : P u := by rw [hu]; exact ports s _ _ _ hs
    rw [hf] at h
    exact rules hPu (exec_eq_next_iff_fires.mp h)
  · rw [hf] at h
    cases h
    rw [hu]
    exact ports s _ _ _ hs
  · rw [hf] at h
    cases h

end Sys2Proof.Machine
end

section
/-! PROOFS. The registers of the block (10_state.md): their reset values, their ports, their writers, and what every
step keeps of them. -/

namespace Sys2Proof

namespace Machine

variable {s t : State}

theorem lineOe_iff (s : State) : s.lineOe = true ↔ s.pinDir = .output := decide_eq_true_iff

/-- The pair a DECODE stores is two numbers of `FIELD_W` bits (42_bit_decoder.md R152, R158 (b)). -/
theorem decodedReading_fits (s : State) :
    s.decodedReading.humidity < 2 ^ s.cfg.fieldW ∧ s.decodedReading.temperature < 2 ^ s.cfg.fieldW :=
  ⟨pack_bitsFrom_lt s _ _, pack_bitsFrom_lt s _ _⟩

/-- TRIGGER sets all the control registers at once, RELEASE lets pin and phase go together, DECODE comes in READY only,
and RESET clears them all; no other rule writes one. -/
theorem Fires.controlCoherent {i : Instr} (hs : s.ControlCoherent) (h : Fires s i t) : t.ControlCoherent := by
  obtain ⟨hpin, hhold, honce⟩ := hs
  cases h with
  | trigger | reset => simp [State.ControlCoherent]
  | decode hr => simp [State.ControlCoherent, hpin, hr]
  | release => simpa [State.ControlCoherent] using honce
  | waits | nop | read | edge | holds | advance => exact ⟨hpin, hhold, honce⟩

/-- A written timestamp is the clock, the clock is narrowed, the counter saturates, and a stored pair is packed from
`FIELD_W` bits each. -/
theorem Fires.widthsFit {i : Instr} (hs : s.WidthsFit) (h : Fires s i t) : t.WidthsFit := by
  obtain ⟨hcnt, href, hhold, hclk, hhum, htemp⟩ := hs
  cases h with
  | trigger => exact ⟨Nat.two_pow_pos _, hclk, hclk, hclk, hhum, htemp⟩
  | decode =>
    have hread : ∀ r : Reading, r = s.decodedReading ∨ r = s.reading →
        r.humidity < 2 ^ s.cfg.fieldW ∧ r.temperature < 2 ^ s.cfg.fieldW := by
      rintro r (rfl | rfl)
      · exact decodedReading_fits s
      · exact ⟨hhum, htemp⟩
    exact ⟨hcnt, href, hhold, hclk, hread _ (ite_eq_or_eq _ _ _)⟩
  | edge => exact ⟨satInc_lt hcnt, hclk, hhold, hclk, hhum, htemp⟩
  | advance d => exact ⟨hcnt, href, hhold, Nat.mod_lt _ (Nat.two_pow_pos _), hhum, htemp⟩
  | reset =>
    exact ⟨Nat.two_pow_pos _, Nat.two_pow_pos _, Nat.two_pow_pos _, hclk, Nat.two_pow_pos _, Nat.two_pow_pos _⟩
  | waits | nop | read | holds | release => exact ⟨hcnt, href, hhold, hclk, hhum, htemp⟩

/-- No rule writes the parameters (00_scope.md R8). -/
theorem Fires.cfg_eq {i : Instr} (h : Fires s i t) : t.cfg = s.cfg := by
  cases h <;> rfl

/-- With every option off `dec_status` is OK (10_state.md R32: "constant 0 in the baseline"). -/
def State.BaselineOk (s : State) : Prop := s.cfg.baseline → s.decStatus = .ok

/-- DECODE's status is OK in the baseline, RESET's too, and no other rule writes it. -/
theorem Fires.baselineOk {i : Instr} (hs : s.BaselineOk) (h : Fires s i t) : t.BaselineOk := by
  cases h with
  | decode => exact decodeStatus_baseline s
  | reset => exact fun _ => rfl
  | waits | trigger | nop | read | edge | holds | release | advance => exact hs

/-- No step changes the parameters. -/
theorem step_cfg_eq (h : step s = .next t) : t.cfg = s.cfg :=
  step_keeps (P := fun u => u.cfg = s.cfg) (fun _ _ _ _ hu => hu) (fun hu hf => hf.cfg_eq.trans hu) rfl h

theorem reset_widthsFit : State.reset.WidthsFit :=
  ⟨Nat.two_pow_pos _, Nat.two_pow_pos _, Nat.two_pow_pos _, Nat.two_pow_pos _, Nat.two_pow_pos _, Nat.two_pow_pos _⟩

theorem reset_controlCoherent : State.reset.ControlCoherent := by
  simp [State.ControlCoherent, State.reset]

end Machine

open Machine

theorem Config.default_wf : Config.default.wf = true := by decide

/-- Settles O43: every rule keeps the control registers in agreement, and no port has a part in it. -/
theorem stepKeepsControlCoherent : Obligations.StepKeepsControlCoherent := fun _ _ =>
  step_keeps (fun _ _ _ _ hs => hs) Fires.controlCoherent

/-- Settles O48: every rule keeps every register within its width, and no port has a part in it. -/
theorem stepKeepsTheWidths : Obligations.StepKeepsTheWidths := fun _ _ =>
  step_keeps (fun _ _ _ _ hs => hs) Fires.widthsFit

/-- Settles O39: for each way a rule fires, the registers it does not write are as before; those it writes name it. -/
theorem registersHaveTheirWriters : Obligations.RegistersHaveTheirWriters := by
  intro i s t h hi
  cases exec_eq_next_iff_fires.mp h with
  | waits | nop | holds => simp
  | read | trigger | decode | edge | release | advance => simp [State.rdHumidity, State.rdTemperature]
  | reset => exact absurd rfl hi

/-- Settles O44: no rule writes the parameters, and in the baseline DECODE's status is OK. -/
theorem baselineStatusStaysOk : Obligations.BaselineStatusStaysOk := by
  intro s t h
  have hcfg : t.cfg = s.cfg := step_cfg_eq h
  refine ⟨hcfg, fun hb hok => ?_⟩
  have ht : t.BaselineOk := step_keeps (fun _ _ _ _ hu => hu) Fires.baselineOk (fun _ => hok) h
  exact ht (hcfg ▸ hb)

/-- Settles O28: each value is written in `State.reset`, and the log's is the empty one. -/
theorem resetStateHasTheSpecsValues : Obligations.ResetStateHasTheSpecsValues :=
  ⟨Memory.read_nil, rfl, rfl, rfl, rfl, rfl, rfl, rfl, rfl, rfl, rfl⟩

/-- Settles O40: both ports show the hold, one through the pin's direction. -/
theorem lineIsDrivenExactlyInTheHold : Obligations.LineIsDrivenExactlyInTheHold := by
  rintro s ⟨hpin, -, -⟩
  have hdriven : s.lineOe = true ↔ s.cmdReady = false :=
    calc s.lineOe = true ↔ s.pinDir = .output := lineOe_iff s
      _ ↔ s.seqPhase = .hold := hpin
      _ ↔ s.cmdReady = false := (cmdReady_false_iff s).symm
  exact ⟨hdriven, rfl⟩

/-- Settles O41: the empty log is canonical, every register is 0, and the default configuration is the baseline. -/
theorem resetMeetsTheInvariants : Obligations.ResetMeetsTheInvariants :=
  ⟨⟨rfl, rfl⟩, reset_widthsFit, reset_controlCoherent, ⟨Nat.le_refl 0, Nat.le_refl 0⟩,
    Config.default_wf, ⟨rfl, rfl, rfl⟩, Nat.two_pow_pos _, rfl⟩

/-- Settles O47: a port that shows a coded register shows the code of its value; the others show it as it is. -/
theorem outputPortsShowTheRegisters : Obligations.OutputPortsShowTheRegisters := fun s =>
  have dec {d : DecStatus} (h : s.decStatus = d) : s.decStatusO = d.code := congrArg DecStatus.code h
  have ctrl {c : CtrlState} (h : s.ctrlState = c) : s.ctrlStateO = c.code := congrArg CtrlState.code h
  ⟨dec, dec, dec, dec, ctrl, ctrl, rfl, rfl, rfl, rfl, cmdReady_iff s, lineOe_iff s, rfl, rfl, rfl,
    captureComplete_iff s⟩

end Sys2Proof
end

section
/-! PROOFS. The memory (20_memory.md): the edge log's canonical form, the step as one whole rule, and the layouts of the
Reading. -/

namespace Sys2Proof

namespace Machine

variable {s t : State}

/-- EDGE writes one slot, in canonical form, RESET puts `LOG_INIT` back, and no other rule writes the log. -/
theorem Fires.logCanonical {i : Instr} (hs : s.LogCanonical) (h : Fires s i t) : t.LogCanonical := by
  obtain ⟨hlog, hinit⟩ := hs
  cases h with
  | edge => exact ⟨wf_logAfterEdge s hlog, hinit⟩
  | reset => exact ⟨hinit, hinit⟩
  | waits | trigger | decode | nop | read | holds | release | advance => exact ⟨hlog, hinit⟩

/-- The humidity is the word's high part and the temperature its low part: quotient and remainder by `2 ^ w`. -/
theorem Reading.word_div_mod {w : Nat} {r : Reading} (ht : r.temperature < 2 ^ w) :
    r.word w / 2 ^ w = r.humidity ∧ r.word w % 2 ^ w = r.temperature := by
  rw [Nat.div_mod_unique (Nat.two_pow_pos w), Reading.word, Nat.add_comm, Nat.mul_comm]
  exact ⟨rfl, ht⟩

/-- Two fields of `w` bits make a word of `2 * w`. -/
theorem Reading.word_lt {w : Nat} {r : Reading} (hh : r.humidity < 2 ^ w) (ht : r.temperature < 2 ^ w) :
    r.word w < 2 ^ (2 * w) := by
  have hhigh : r.word w / 2 ^ w < 2 ^ w := (word_div_mod ht).1.symm ▸ hh
  rw [two_mul, pow_add]
  exact (Nat.div_lt_iff_lt_mul (Nat.two_pow_pos w)).mp hhigh

/-- The bytes as numbers are the word's digits to the base 256, the most significant first. -/
theorem Reading.bytes_toNat (w : Nat) (r : Reading) :
    (r.bytes w).map BitVec.toNat =
      (List.range ((2 * w + 7) / 8)).reverse.map fun k => r.word w / 2 ^ (8 * k) % 2 ^ 8 := by
  rw [Reading.bytes, List.map_map]
  exact List.map_congr_left fun k _ => BitVec.toNat_ofNat _ 8

/-- With fields of 16 bits the upper two of the four digits are those of the humidity, the lower two those of the
temperature. -/
theorem Reading.bytes_16 {r : Reading} (hh : r.humidity < 2 ^ 16) (ht : r.temperature < 2 ^ 16) :
    (r.bytes 16).map BitVec.toNat =
      [r.humidity / 256, r.humidity % 256, r.temperature / 256, r.temperature % 256] := by
  have hdigits : (List.range ((2 * 16 + 7) / 8)).reverse = [3, 2, 1, 0] := by decide
  obtain ⟨hhigh, hlow⟩ := word_div_mod ht
  rw [bytes_toNat, hdigits]
  simp only [List.map_cons, List.map_nil, List.cons.injEq, and_true]
  omega

end Machine

open Machine

/-- Settles O42: every rule keeps the log and `LOG_INIT` in canonical form, and no port has a part in it. -/
theorem stepKeepsTheLogCanonical : Obligations.StepKeepsTheLogCanonical := fun _ _ =>
  step_keeps (fun _ _ _ _ hs => hs) Fires.logCanonical

/-- Settles O34: what is fetched is a rule from a state in which only agenda and port have moved, or only a move of
agenda, port and detector; where no step is offered there is no next state. -/
theorem stepIsOneWholeRule : Obligations.StepIsOneWholeRule := by
  intro s t h
  unfold step at h
  obtain ⟨i, u, hf, hu⟩ | ⟨u, hf, hu⟩ | ⟨-, hf⟩ := fetch_cases s
  · rw [hf] at h
    exact .inl ⟨i, u, h, hu⟩
  · rw [hf] at h
    cases h
    exact .inr hu
  · rw [hf] at h
    cases h

/-- Settles O24: the word is split by quotient and remainder, and its four bytes are its digits to the base 256. -/
theorem readPortLayout : Obligations.ReadPortLayout :=
  ⟨fun _ _ => Reading.word_div_mod, fun _ hh ht => ⟨Reading.word_lt hh ht, Reading.bytes_16 hh ht⟩⟩

end Sys2Proof
end

section
/-! PROOFS. The encoding (30_encoding.md): the command byte and its instruction, and the step that takes a turn. -/

namespace Sys2Proof

variable {c : Config} {op : Byte}

theorem decode_cons (c : Config) (op : Byte) (rest : List Byte) :
    decode c (op :: rest) = .ok (decodeByte c op, rest) := rfl

theorem decodeByte_cmdTrigger (c : Config) : decodeByte c c.cmdTrigger = .trigger := if_pos rfl

theorem decodeByte_cmdDecode (h : c.cmdTrigger ≠ c.cmdDecode) : decodeByte c c.cmdDecode = .decode := by
  rw [decodeByte, if_neg h.symm, if_pos rfl]

theorem decodeByte_of_ne (ht : op ≠ c.cmdTrigger) (hd : op ≠ c.cmdDecode) : decodeByte c op = .nop op := by
  rw [decodeByte, if_neg ht, if_neg hd]

theorem Instr.wf_nop_iff : (Instr.nop op).wf c = true ↔ op ≠ c.cmdTrigger ∧ op ≠ c.cmdDecode := by
  simp [Instr.wf]

theorem Config.cmdTrigger_ne_cmdDecode (h : c.wf = true) : c.cmdTrigger ≠ c.cmdDecode := by
  simp only [Config.wf, Bool.and_eq_true, bne_iff_ne] at h
  obtain ⟨⟨⟨⟨⟨hne, -⟩, -⟩, -⟩, -⟩, -⟩ := h
  exact hne

/-- The decoder inverts the encoder on a well-formed instruction, once the two command bytes differ. -/
theorem decodeByte_of_encode {i : Instr} (hc : c.cmdTrigger ≠ c.cmdDecode) (hi : i.wf c = true)
    (h : encode c i = some [op]) : decodeByte c op = i := by
  cases i with
  | trigger => cases h; exact decodeByte_cmdTrigger c
  | decode => cases h; exact decodeByte_cmdDecode hc
  | nop b =>
    cases h
    obtain ⟨ht, hd⟩ := Instr.wf_nop_iff.mp hi
    exact decodeByte_of_ne ht hd
  | read | edge | release | advance d | reset => cases h

/-- The encoder inverts the decoder: each of its three cases gives the byte back. -/
theorem encode_decodeByte (c : Config) (op : Byte) : encode c (decodeByte c op) = some [op] := by
  unfold decodeByte
  split_ifs with ht hd
  · rw [ht]; rfl
  · rw [hd]; rfl
  · rfl

/-- A decoded NOP carries neither of the two command bytes. -/
theorem decodeByte_wf (c : Config) (op : Byte) : (decodeByte c op).wf c = true := by
  unfold decodeByte
  split_ifs with ht hd
  · rfl
  · rfl
  · exact Instr.wf_nop_iff.mpr ⟨ht, hd⟩

theorem commandByte_statement : ∀ i : Instr, Laws.CommandByte.Statement i
  | .trigger => Laws.CommandByte.trigger
  | .decode => Laws.CommandByte.decode
  | .nop b => Laws.CommandByte.nop b
  | .read => Laws.CommandByte.read
  | .edge => Laws.CommandByte.edge
  | .release => Laws.CommandByte.release
  | .advance d => Laws.CommandByte.advance d
  | .reset => Laws.CommandByte.reset

/-- A table word of eight bits is one byte, the word's low eight bits. -/
theorem tableBytes_eight (w : Nat) : tableBytes 8 w = [BitVec.ofNat 8 w] := by
  have hlow : BitVec.ofNat 8 (w % 2 ^ 8) = BitVec.ofNat 8 w := BitVec.eq_of_toNat_eq (by simp)
  rw [tableBytes, if_neg (by decide), hlow]

theorem decodeTableWord_eight (w : Nat) :
    decodeTableWord 8 w = some (decodeByte Config.default (BitVec.ofNat 8 w)) := by
  rw [decodeTableWord, tableBytes_eight]
  rfl

/-- Settles O31: an encoding is one byte, from which `decodeByte` gives the instruction back; which instructions have
one is read off the encoder, a constructor at a time. -/
theorem encodedInstructionDecodesBack : Obligations.EncodedInstructionDecodesBack := by
  intro c i hc hi
  obtain ⟨hsome, hlen⟩ := commandByte_statement i c
  refine ⟨fun bs rest h => ⟨hlen bs h, ?_⟩, ?_⟩
  · obtain ⟨op, rfl⟩ := List.length_eq_one_iff.mp (hlen bs h)
    rw [List.singleton_append, decode_cons, decodeByte_of_encode (Config.cmdTrigger_ne_cmdDecode hc) hi h]
  · rw [← hsome, Option.isSome_iff_exists]

namespace Machine

variable {s t : State}

/-- No rule writes the command port: a byte is consumed by the fetch alone (10_state.md R39). -/
theorem Fires.cmdPort_eq {i : Instr} (h : Fires s i t) : t.cmdPort = s.cmdPort := by
  cases h <;> rfl

/-- Every operation answers a next state. -/
theorem exists_exec_eq_next (i : Instr) (s : State) : ∃ t, exec i s = .next t := by
  cases i <;> exact ⟨_, rfl⟩

/-- The command context's turn gives the rule of the byte at the port, which is spent exactly if the port is ready. -/
theorem fetchCommand_of_decode {i : Instr} {bs : List Byte} (h : decode s.cfg s.cmdPort = .ok (i, bs)) :
    s.fetchCommand = .rule i { s with cmdPort := if s.cmdReady then bs else s.cmdPort } := by
  rw [State.fetchCommand, h]
  cases hr : s.cmdReady <;> simp

section
variable {turn : Turn} {rest : List Turn} {i : Instr}
variable (h0 : s.cfg.setupOk = true)
include h0

/-- A step whose turn fires a rule is that rule. -/
theorem step_of_fetchTurn_rule (ha : s.agenda = turn :: rest)
    (hf : State.fetchTurn { s with agenda := rest } turn = .rule i t) : step s = exec i t := by
  rw [step, fetch_cons s turn rest h0 ha, hf]

/-- A step whose turn fires no rule is the move of the ports. -/
theorem step_of_fetchTurn_wiring (ha : s.agenda = turn :: rest)
    (hf : State.fetchTurn { s with agenda := rest } turn = .wiring t) : step s = .next t := by
  rw [step, fetch_cons s turn rest h0 ha, hf]

/-- A command turn runs the decoded rule, and spends the byte exactly if the port is ready (30_encoding.md R97). -/
theorem step_command {bs : List Byte} (ha : s.agenda = .command :: rest)
    (hd : decode s.cfg s.cmdPort = .ok (i, bs)) :
    step s = exec i { s with agenda := rest, cmdPort := if s.cmdReady then bs else s.cmdPort } :=
  step_of_fetchTurn_rule h0 ha (fetchCommand_of_decode (s := { s with agenda := rest }) hd)

/-- In HOLD a command turn leaves the byte at the port and runs its rule, which waits (10_state.md R39). -/
theorem step_command_of_hold {b : Byte} {bs : List Byte} (hs : s.seqPhase = .hold)
    (ha : s.agenda = .command :: rest) (hp : s.cmdPort = b :: bs) : step s = .next { s with agenda := rest } := by
  have hd : decode s.cfg s.cmdPort = .ok (decodeByte s.cfg b, bs) := by rw [hp, decode_cons]
  have hr : ¬ s.cmdReady = true := by simp [(cmdReady_false_iff s).mpr hs]
  rw [step_command h0 ha hd, if_neg hr]
  exact exec_command_of_hold (decodeByte_isCommand _ _) hs

/-- In READY a command turn consumes the byte and runs its rule (43_store_and_controller.md R175). -/
theorem step_command_of_ready {b : Byte} {bs : List Byte} (hs : s.seqPhase = .ready)
    (ha : s.agenda = .command :: rest) (hp : s.cmdPort = b :: bs) :
    step s = exec (decodeByte s.cfg b) { s with agenda := rest, cmdPort := bs } := by
  have hd : decode s.cfg s.cmdPort = .ok (decodeByte s.cfg b, bs) := by rw [hp, decode_cons]
  rw [step_command h0 ha hd, if_pos ((cmdReady_iff s).mpr hs)]

/-- The byte that `withFetchWord` places is consumed at once in READY, and the port and the agenda are as before. -/
theorem step_withFetchWord_of_ready (w : Nat) (hs : s.seqPhase = .ready) :
    step (s.withFetchWord 8 w) = exec (decodeByte s.cfg (BitVec.ofNat 8 w)) s := by
  have hport : (s.withFetchWord 8 w).cmdPort = BitVec.ofNat 8 w :: s.cmdPort := by
    rw [State.withFetchWord, State.placeWord_cmdPort, tableBytes_eight, List.singleton_append]
  exact step_command_of_ready (s := s.withFetchWord 8 w) h0 hs rfl hport

end

end Machine

open Machine

/-- Settles O4: in HOLD no command is enabled, and the turn leaves the byte where it is; READ asks for no phase; in
READY the byte is consumed by the fetch, and its rule answers a state with the port that the fetch left. -/
theorem holdKeepsCommandsWaiting : Obligations.HoldKeepsCommandsWaiting := by
  refine ⟨fun _ _ hs hi => exec_command_of_hold hi hs,
    fun _ _ _ _ h0 hs ha hp => step_command_of_hold h0 hs ha hp,
    fun s _ => exec_read s, ?_⟩
  intro s b bs rest h0 hs ha hp
  have hstep := step_command_of_ready h0 hs ha hp
  obtain ⟨t, ht⟩ := exists_exec_eq_next (decodeByte s.cfg b) { s with agenda := rest, cmdPort := bs }
  exact ⟨t, hstep.trans ht, hstep, (exec_eq_next_iff_fires.mp ht).cmdPort_eq⟩

/-- Settles O32: the byte's command is `decodeByte` of it. -/
theorem everyByteIsOneCommand : Obligations.EveryByteIsOneCommand := fun c op rest =>
  ⟨decodeByte c op, decode_cons c op rest, decodeByte_wf c op, decodeByte_isCommand c op, encode_decodeByte c op⟩

/-- Settles O29: under the default parameters `decodeByte` is the map that R91 writes. -/
theorem decoderFollowsTheOpcodeMap : Obligations.DecoderFollowsTheOpcodeMap := fun op rest =>
  decode_cons Config.default op rest

/-- Settles O30: a table word decodes as its byte does, and each of the seven bytes is a closed case. -/
theorem sampleWordsDecode : Obligations.SampleWordsDecode := by
  simp only [Obligations.SampleWordsDecode, decodeTableWord_eight]
  decide

/-- Settles O33: what each turn fetches is read off `fetchTurn`; the placed word's turn is a command turn. -/
theorem stepRunsTheSelectedRule : Obligations.StepRunsTheSelectedRule :=
  ⟨fun _ _ _ _ h0 ha hd => step_command h0 ha hd,
    fun _ _ h0 =>
      ⟨fun ha => step_of_fetchTurn_rule h0 ha rfl, fun ha => step_of_fetchTurn_rule h0 ha rfl,
        fun ha => step_of_fetchTurn_rule h0 ha rfl, fun _ ha => step_of_fetchTurn_rule h0 ha rfl,
        fun ha => step_of_fetchTurn_rule h0 ha rfl, fun _ ha => step_of_fetchTurn_wiring h0 ha rfl⟩,
    fun _ w h0 hs _ => step_withFetchWord_of_ready h0 w hs⟩

end Sys2Proof
end

section
/-! PROOFS. The trigger sequencer (40_trigger_sequencer.md): TRIGGER, RELEASE and the low hold between them. -/

namespace Sys2Proof

namespace Machine

variable {s t : State}

/-- A property that every rule of a list keeps still holds after the list, and the list runs to its end. -/
theorem exists_runRules_of_keeps {P : State → Prop} {is : List Instr}
    (rules : ∀ i ∈ is, ∀ {s t : State}, P s → Fires s i t → P t) (hs : P s) :
    ∃ t, runRules is s = .next t ∧ P t := by
  induction is generalizing s with
  | nil => exact ⟨s, rfl, hs⟩
  | cons i is ih =>
    obtain ⟨u, hu⟩ := exists_exec_eq_next i s
    have hPu : P u := rules i List.mem_cons_self hs (exec_eq_next_iff_fires.mp hu)
    rw [runRules, hu]
    exact ih (fun j hj => rules j (List.mem_cons_of_mem i hj)) hPu

/-- TRIGGER is the only rule that leaves READY (10_state.md R27). -/
theorem Fires.seqPhase_ready {i : Instr} (hi : i ≠ .trigger) (hs : s.seqPhase = .ready) (h : Fires s i t) :
    t.seqPhase = .ready := by
  cases h with
  | trigger => exact absurd rfl hi
  | release | reset => rfl
  | waits | decode | nop | read | edge | holds | advance => exact hs

theorem exec_trigger_of_ready (hs : s.seqPhase = .ready) : exec .trigger s = .next s.arm :=
  exec_eq_next_iff_fires.mpr (.trigger hs)

theorem exec_release_of_enabled (h : s.releaseEnabled = true) : exec .release s = .next s.letGo :=
  exec_eq_next_iff_fires.mpr (.release h)

theorem exec_release_of_disabled (h : s.releaseEnabled = false) : exec .release s = .next s :=
  exec_eq_next_iff_fires.mpr (.holds h)

/-- With nothing on the agenda the block's own turn is an enabled RELEASE (log 5). -/
theorem step_of_releaseEnabled (h0 : s.cfg.setupOk = true) (ha : s.agenda = []) (hr : s.releaseEnabled = true) :
    step s = exec .release s := by
  have hown : s.ownTurn = some .release := if_pos hr
  rw [step, fetch_nil s h0 ha, hown]
  rfl

/-- The command context takes RELEASE exactly if it is enabled; its other turn is the byte's. -/
theorem release_mem_commandTurns_iff : Turn.release ∈ s.commandTurns ↔ s.releaseEnabled = true := by
  unfold State.commandTurns
  split_ifs with hr <;> simp [hr]

theorem release_notMem_edgeTurns (s : State) : Turn.release ∉ s.edgeTurns := by
  unfold State.edgeTurns
  split_ifs <;> simp

/-- RELEASE is among the rules of a period exactly if it is enabled: the edge context has no part in it (log 10). -/
theorem release_mem_periodTurns_iff {p : Pins} (hp : p.rst = false) :
    Turn.release ∈ s.periodTurns p ↔ s.releaseEnabled = true := by
  rw [mem_periodTurns s p hp, or_iff_right (release_notMem_edgeTurns s), release_mem_commandTurns_iff]

/-- In HOLD the time not yet over is what keeps a RELEASE from being enabled. -/
theorem heldFor_lt_of_hold (hs : s.seqPhase = .hold) (hr : ¬ s.releaseEnabled = true) : s.heldFor < s.cfg.holdNs :=
  not_le.mp fun hle => hr ((releaseEnabled_iff s).mpr ⟨hs, hle⟩)

/-- The clock moves the time since the hold began with it, as long as that time does not wrap. -/
theorem heldFor_tick {d : Nat} (hd : s.heldFor + d < 2 ^ s.cfg.sampleW) : (s.tick d).heldFor = s.heldFor + d :=
  (subMod_add s.cfg.sampleW s.clock s.holdStart d).trans (Nat.mod_eq_of_lt hd)

end Machine

open Machine

/-- Settles O2: RELEASE fires exactly if it is enabled, by itself and in a period; in a period without it the hold is
younger than `HOLD_NS`, and the pace adds at most `T_CLK + CLK_GRAN` to its age. -/
theorem releaseEndsHold : Obligations.ReleaseEndsHold := by
  refine ⟨fun s hs hle => ?_, fun s h => exec_release_of_disabled (releaseEnabled_eq_false s h),
    fun s h0 ha hs hle => step_of_releaseEnabled h0 ha ((releaseEnabled_iff s).mpr ⟨hs, hle⟩),
    fun s p hp => (release_mem_periodTurns_iff hp).trans (releaseEnabled_iff s), ?_, rfl⟩
  · exact ⟨s.letGo, exec_release_of_enabled ((releaseEnabled_iff s).mpr ⟨hs, hle⟩), rfl, rfl, rfl⟩
  · intro s p d hs hp hnot hpace hwrap
    have hyoung : s.heldFor < s.cfg.holdNs :=
      heldFor_lt_of_hold hs fun hr => hnot ((release_mem_periodTurns_iff hp).mpr hr)
    calc (s.tick d).heldFor = s.heldFor + d := heldFor_tick hwrap
      _ < s.cfg.holdNs + (s.cfg.tClk + s.cfg.clkGran) := Nat.add_lt_add_of_lt_of_le hyoung hpace
      _ = s.cfg.holdNs + s.cfg.tClk + s.cfg.clkGran := (Nat.add_assoc _ _ _).symm

/-- Settles O3: every rule but TRIGGER keeps READY, and in READY a RELEASE is not enabled. -/
theorem releaseNeedsItsTrigger : Obligations.ReleaseNeedsItsTrigger := by
  intro s is hs hno
  obtain ⟨t, hrun, ht⟩ := exists_runRules_of_keeps (P := fun u => u.seqPhase = .ready)
    (fun i hi => Fires.seqPhase_ready (hno i hi)) hs
  exact ⟨t, hrun, ht, exec_release_of_disabled (releaseEnabled_eq_false t (.inl ht))⟩

/-- Settles O1: in READY TRIGGER answers `State.arm`, in HOLD it waits as every command does, and the first row of the
opcode map is its byte. -/
theorem triggerArmsCapture : Obligations.TriggerArmsCapture := by
  refine ⟨fun s hs => ⟨s.arm, exec_trigger_of_ready hs, rfl, rfl, rfl, rfl, rfl, rfl, rfl, rfl⟩,
    fun s hs => exec_command_of_hold rfl hs, fun c rest => ?_, rfl⟩
  rw [decode_cons, decodeByte_cmdTrigger]

end Sys2Proof
end

section
/-! PROOFS. The clock and the capture handler (41_pulse_capture.md): ADVANCE, EDGE, and what a cycle captures. -/

namespace Sys2Proof

/-- At its ceiling the counter stays (41_pulse_capture.md R136). -/
theorem satInc_ceiling (w : Nat) : satInc w (2 ^ w - 1) = 2 ^ w - 1 := if_neg (lt_irrefl _)

/-- Counting one more edge up to the ceiling. -/
theorem satInc_min_ceiling (w n : Nat) : satInc w (min n (2 ^ w - 1)) = min (n + 1) (2 ^ w - 1) := by
  have hpos : 0 < 2 ^ w := Nat.two_pow_pos w
  rw [satInc_eq_min (by omega)]
  omega

/-- In a well-formed configuration the counter can pass the window. -/
theorem Config.window_lt_two_pow {c : Config} (h : c.wf = true) : c.skip + c.logDepth < 2 ^ c.cntW := by
  simp only [Config.wf, Bool.and_eq_true, decide_eq_true_eq] at h
  obtain ⟨⟨⟨⟨-, hlt⟩, -⟩, -⟩, -⟩ := h
  exact hlt

namespace Machine

variable {s t u : State} {i : Instr} {is : List Instr}

theorem withinCycle_iff : withinCycle is = true ↔ ∀ i ∈ is, i ≠ .trigger ∧ i ≠ .reset := by
  simp [withinCycle]

/-- ADVANCE is the only rule that writes the clock (41_pulse_capture.md R131). -/
theorem Fires.clock_eq (h : Fires s i t) (hi : ∀ d, i ≠ .advance d) : t.clock = s.clock := by
  cases h with
  | advance d => exact absurd rfl (hi d)
  | waits | trigger | decode | nop | read | edge | holds | release | reset => rfl

/-- A timestamp is written with the clock's value or 0, and a clock that does not wrap only grows
(41_pulse_capture.md R141 (a)). -/
theorem Fires.timestampsPast (hs : s.TimestampsPast) (hw : ClkNoWrap i s) (h : Fires s i t) : t.TimestampsPast := by
  obtain ⟨href, hhold⟩ := hs
  cases h with
  | waits | decode | nop | read | holds | release => exact ⟨href, hhold⟩
  | trigger => exact ⟨le_refl _, le_refl _⟩
  | edge => exact ⟨le_refl _, hhold⟩
  | advance d =>
    have hclock : (s.tick d).clock = s.clock + d := Nat.mod_eq_of_lt (hw d rfl)
    constructor <;> rw [hclock]
    · exact Nat.le_add_right_of_le href
    · exact Nat.le_add_right_of_le hhold
  | reset => exact ⟨Nat.zero_le _, Nat.zero_le _⟩

/-! Past the window (R135, R136). -/

/-- An EDGE past the window writes no slot. -/
theorem capture_of_captureComplete (h : s.captureComplete = true) :
    s.capture = { s with referenceTime := s.clock, edgeCounter := satInc s.cfg.cntW s.edgeCounter } := by
  rw [State.capture, logAfterEdge_outside s (.inr ((captureComplete_iff s).mp h))]
  rfl

/-- A complete capture stays complete within its cycle, and its log stays as it is. -/
theorem Fires.keeps_complete_log (hcycle : i ≠ .trigger ∧ i ≠ .reset) (hs : s.captureComplete = true)
    (h : Fires s i t) : t.edgeLog = s.edgeLog ∧ t.captureComplete = true := by
  cases h with
  | trigger => exact absurd rfl hcycle.1
  | reset => exact absurd rfl hcycle.2
  | edge =>
    rw [capture_of_captureComplete hs]
    rw [captureComplete_iff] at hs ⊢
    exact ⟨rfl, hs.trans (le_satInc _ _)⟩
  | waits | decode | nop | read | holds | release | advance => exact ⟨rfl, hs⟩

/-- The status of a DECODE depends on the counter only by whether the capture is complete. -/
theorem decodeStatus_with_edgeCounter {d : Nat} (hs : s.captureComplete = true)
    (hd : ({ s with edgeCounter := d } : State).captureComplete = true) :
    ({ s with edgeCounter := d } : State).decodeStatus = s.decodeStatus := by
  unfold State.decodeStatus
  rw [hd, hs]
  rfl

/-- A rule that fires with the counter past the window fires alike with any other counter past it, and leaves the same
state but for such a counter. -/
theorem Fires.with_edgeCounter_past {d : Nat} (hs : s.captureComplete = true)
    (hd : s.cfg.skip + s.cfg.logDepth ≤ d) (h : Fires s i t) :
    ∃ d', Fires { s with edgeCounter := d } i { t with edgeCounter := d' }
      ∧ (t.edgeCounter = d'
        ∨ t.cfg.skip + t.cfg.logDepth ≤ t.edgeCounter ∧ t.cfg.skip + t.cfg.logDepth ≤ d') := by
  have hc : s.cfg.skip + s.cfg.logDepth ≤ s.edgeCounter := (captureComplete_iff s).mp hs
  have hds : ({ s with edgeCounter := d } : State).captureComplete = true := (captureComplete_iff _).mpr hd
  cases h with
  | waits hi hw => exact ⟨d, .waits hi hw, .inr ⟨hc, hd⟩⟩
  | trigger hr => exact ⟨0, .trigger hr, .inl rfl⟩
  | decode hr =>
    have hf := Fires.decode (s := { s with edgeCounter := d }) hr
    rw [decodeStatus_with_edgeCounter hs hds] at hf
    exact ⟨d, hf, .inr ⟨hc, hd⟩⟩
  | nop b => exact ⟨d, .nop b, .inr ⟨hc, hd⟩⟩
  | read => exact ⟨d, .read, .inr ⟨hc, hd⟩⟩
  | edge =>
    have hf := Fires.edge (s := { s with edgeCounter := d })
    rw [capture_of_captureComplete hds] at hf
    rw [capture_of_captureComplete hs]
    exact ⟨satInc s.cfg.cntW d, hf, .inr ⟨hc.trans (le_satInc _ _), hd.trans (le_satInc _ _)⟩⟩
  | holds hr => exact ⟨d, .holds hr, .inr ⟨hc, hd⟩⟩
  | release hr => exact ⟨d, .release hr, .inr ⟨hc, hd⟩⟩
  | advance k => exact ⟨d, .advance k, .inr ⟨hc, hd⟩⟩
  | reset => exact ⟨0, .reset, .inl rfl⟩

/-! What a cycle captures (R138): a run is followed with the times of its edges so far. -/

/-- A command is no edge and leaves the clock. -/
theorem edgeTimes_cons_of_command (hi : i.isCommand = true) (w : Nat) (is : List Instr) (c : Nat) :
    edgeTimes w (i :: is) c = edgeTimes w is c := by
  cases i with
  | trigger | decode | nop b => rfl
  | read | edge | release | advance d | reset => cases hi

/-- The edge of the first rule comes first, and the clock it leaves is the one the other edges are timed by. -/
theorem Fires.edgeTimes_cons (h : Fires s i t) (is : List Instr) :
    edgeTimes s.cfg.sampleW (i :: is) s.clock =
      edgeTimes s.cfg.sampleW [i] s.clock ++ edgeTimes t.cfg.sampleW is t.clock := by
  cases h with
  | waits hi => rw [edgeTimes_cons_of_command hi, edgeTimes_cons_of_command hi, edgeTimes, List.nil_append]
  | trigger | decode | nop | read | edge | holds | release | advance | reset => rfl

/-- A property of a state and the times of the edges so far that every rule of a list keeps holds after the list, of the
state it ends in and the times with the list's own added. -/
theorem exists_runRules_of_edgeTimes {P : List Nat → State → Prop} {ts : List Nat}
    (rules : ∀ i ∈ is, ∀ {ts : List Nat} {s t : State},
      P ts s → Fires s i t → P (ts ++ edgeTimes s.cfg.sampleW [i] s.clock) t)
    (hs : P ts s) :
    ∃ t, runRules is s = .next t ∧ P (ts ++ edgeTimes s.cfg.sampleW is s.clock) t := by
  induction is generalizing s ts with
  | nil => exact ⟨s, rfl, by rwa [edgeTimes, List.append_nil]⟩
  | cons i is ih =>
    obtain ⟨u, hu⟩ := exists_exec_eq_next i s
    have hf : Fires s i u := exec_eq_next_iff_fires.mp hu
    rw [runRules, hu, hf.edgeTimes_cons, ← List.append_assoc]
    exact ih (fun j hj => rules j (List.mem_cons_of_mem i hj)) (rules i List.mem_cons_self hs hf)

/-- In a cycle under the parameters `c` the edges at `ts` have been counted, the last of them is the reference, and each
slot reached holds the time from the edge before its own to its own. -/
structure State.HoldsDeltas (c : Config) (ts : List Nat) (s : State) : Prop where
  cfg : s.cfg = c
  counter : s.edgeCounter = min ts.length (2 ^ c.cntW - 1)
  reference : 0 < ts.length → s.referenceTime = ts.getD (ts.length - 1) 0
  slots : ∀ k < c.logDepth, k + c.skip < ts.length →
    s.edgeLog.read k = subMod c.sampleW (ts.getD (k + c.skip) 0) (ts.getD (k + c.skip - 1) 0)

/-- TRIGGER begins a cycle with no edge counted and no slot reached. -/
theorem holdsDeltas_arm (s : State) : s.arm.HoldsDeltas s.cfg [] where
  cfg := rfl
  counter := (Nat.zero_min _).symm
  reference h := absurd h (Nat.lt_irrefl 0)
  slots _ _ h := absurd h (Nat.not_lt_zero _)

section

variable {c : Config} {ts : List Nat}
variable (hskip : 0 < c.skip) (hwindow : c.skip + c.logDepth < 2 ^ c.cntW)
include hskip hwindow

/-- An EDGE captures its own delta: the first edge is among the skipped ones, so the reference time of an edge that has a
slot is that of the edge before it; and the ceiling is past the window, so the counter of such an edge is exact. -/
theorem State.HoldsDeltas.capture (h : s.HoldsDeltas c ts) : s.capture.HoldsDeltas c (ts ++ [s.clock]) := by
  obtain ⟨rfl, hcount, href, hslots⟩ := h
  refine ⟨rfl, ?_, fun _ => ?_, fun k hk hlt => ?_⟩
  · rw [State.capture_edgeCounter, hcount, satInc_min_ceiling, List.length_append, List.length_singleton]
  · simp [State.now]
  · rw [List.length_append, List.length_singleton] at hlt
    have hslot : s.cfg.skip + k = s.edgeCounter ↔ k + s.cfg.skip = ts.length := by omega
    have hbefore : k + s.cfg.skip - 1 < ts.length := by omega
    rw [State.capture_edgeLog, read_logAfterEdge, List.getD_append _ _ _ _ hbefore]
    by_cases hnew : k + s.cfg.skip = ts.length
    · rw [if_pos ⟨hk, hslot.mpr hnew⟩, href (by omega), hnew, List.getD_append_right _ _ _ _ (le_refl _),
        Nat.sub_self, List.getD_cons_zero]
    · have hold : k + s.cfg.skip < ts.length := by omega
      rw [if_neg fun h => hnew (hslot.mp h.2), hslots k hk hold, List.getD_append _ _ _ _ hold]

/-- The cycle's rules keep the deltas captured so far: an EDGE adds its own, no other rule has a part in them. -/
theorem Fires.holdsDeltas (hcycle : i ≠ .trigger ∧ i ≠ .reset) (hs : s.HoldsDeltas c ts) (h : Fires s i t) :
    t.HoldsDeltas c (ts ++ edgeTimes s.cfg.sampleW [i] s.clock) := by
  cases h with
  | trigger => exact absurd rfl hcycle.1
  | reset => exact absurd rfl hcycle.2
  | edge => exact hs.capture hskip hwindow
  | waits hi => rwa [edgeTimes_cons_of_command hi, edgeTimes, List.append_nil]
  | decode | nop | read | holds | release | advance =>
    rw [edgeTimes, edgeTimes, List.append_nil]
    exact ⟨hs.cfg, hs.counter, hs.reference, hs.slots⟩

end

/-! The rules beside the capture (R138, R33). -/

/-- The rules that capture or time: EDGE and ADVANCE. -/
def drivesCapture : Instr → Bool
  | .edge => true
  | .advance _ => true
  | _ => false

/-- Two states that agree in all a capture reads and writes. -/
structure SameCapture (s u : State) : Prop where
  cfg : s.cfg = u.cfg
  edgeLog : s.edgeLog = u.edgeLog
  edgeCounter : s.edgeCounter = u.edgeCounter
  referenceTime : s.referenceTime = u.referenceTime
  clock : s.clock = u.clock

theorem SameCapture.refl (s : State) : SameCapture s s := ⟨rfl, rfl, rfl, rfl, rfl⟩

/-- An EDGE's writes are functions of what a capture reads. -/
theorem SameCapture.capture (h : SameCapture s u) : SameCapture s.capture u.capture where
  cfg := h.cfg
  edgeLog := by
    simp only [State.capture_edgeLog, State.logAfterEdge, State.edgeSlot, State.delta, State.now, h.cfg, h.edgeLog,
      h.edgeCounter, h.referenceTime, h.clock]
  edgeCounter := by rw [State.capture_edgeCounter, State.capture_edgeCounter, h.cfg, h.edgeCounter]
  referenceTime := h.clock
  clock := h.clock

theorem SameCapture.tick (h : SameCapture s u) (d : Nat) : SameCapture (s.tick d) (u.tick d) where
  cfg := h.cfg
  edgeLog := h.edgeLog
  edgeCounter := h.edgeCounter
  referenceTime := h.referenceTime
  clock := by rw [State.tick_clock, State.tick_clock, h.cfg, h.clock]

/-- A rule that neither captures nor times leaves all of it alone, within a cycle. -/
theorem Fires.sameCapture_of_other (hcycle : i ≠ .trigger ∧ i ≠ .reset) (hi : drivesCapture i = false)
    (hu : SameCapture s u) (h : Fires s i t) : SameCapture t u := by
  cases h with
  | trigger => exact absurd rfl hcycle.1
  | reset => exact absurd rfl hcycle.2
  | edge | advance => cases hi
  | waits | decode | nop | read | holds | release =>
    exact ⟨hu.cfg, hu.edgeLog, hu.edgeCounter, hu.referenceTime, hu.clock⟩

/-- EDGE and ADVANCE keep two states in agreement. -/
theorem SameCapture.exec {v : State} (hi : drivesCapture i = true) (hu : SameCapture s u)
    (ht : exec i s = .next t) (hv : exec i u = .next v) : SameCapture t v := by
  cases i with
  | edge => cases ht; cases hv; exact hu.capture
  | advance d => cases ht; cases hv; exact hu.tick d
  | trigger | decode | nop b | read | release | reset => cases hi

/-- Within a cycle a list and its EDGEs and ADVANCEs alone keep two states in agreement. -/
theorem SameCapture.runRules_filter (hcycle : ∀ i ∈ is, i ≠ .trigger ∧ i ≠ .reset) (hu : SameCapture s u) :
    ∃ t v, runRules is s = .next t ∧ runRules (is.filter drivesCapture) u = .next v ∧ SameCapture t v := by
  induction is generalizing s u with
  | nil => exact ⟨s, u, rfl, rfl, hu⟩
  | cons i is ih =>
    obtain ⟨hi, his⟩ := List.forall_mem_cons.mp hcycle
    obtain ⟨s', hs'⟩ := exists_exec_eq_next i s
    rw [runRules, hs']
    cases hd : drivesCapture i with
    | false =>
      rw [List.filter_cons_of_neg (by simp [hd])]
      exact ih his ((exec_eq_next_iff_fires.mp hs').sameCapture_of_other hi hd hu)
    | true =>
      obtain ⟨u', hu'⟩ := exists_exec_eq_next i u
      rw [List.filter_cons_of_pos hd, runRules, hu']
      exact ih his (hu.exec hd hs' hu')

/-! The edge detector of a clocked implementation (R139). -/

/-- Two more samples push a list through the detector: the levels that pass the comparison are the two in its
synchroniser and then the list. -/
theorem edgesRaised_append_pair (e : EdgeDetector) (levels : List Bool) (a b : Bool) :
    edgesRaised e (levels ++ [a, b]) = countRises e.previous (e.stage2 :: e.stage1 :: levels) := by
  induction levels generalizing e with
  | nil => rfl
  | cons l ls ih =>
    rw [List.cons_append, edgesRaised, ih, countRises]
    rfl

/-- High levels after a high level are no rises. -/
theorem countRises_high_high (levels : List Bool) :
    countRises true (true :: true :: levels) = countRises true levels := by
  simp [countRises]

/-- A period without `rst` shifts the detector. -/
theorem runPeriod_detector {p : Pins} (hp : p.rst = false) : (s.runPeriod p).detector = s.detector.sample p.lineI :=
  if_neg (by simp [hp])

theorem rising_iff (e : EdgeDetector) : e.rising = true ↔ e.previous = false ∧ e.stage2 = true := by
  simp [EdgeDetector.rising]

theorem edge_notMem_commandTurns (s : State) : Turn.edge ∉ s.commandTurns := by
  unfold State.commandTurns
  split_ifs <;> simp

theorem edge_mem_edgeTurns_iff : Turn.edge ∈ s.edgeTurns ↔ s.detector.rising = true := by
  unfold State.edgeTurns
  split_ifs with hr <;> simp [hr]

/-- EDGE is among the rules of a period exactly if the detector raises an event in it. -/
theorem edge_mem_periodTurns_iff {p : Pins} (hp : p.rst = false) :
    Turn.edge ∈ s.periodTurns p ↔ s.detector.rising = true := by
  rw [mem_periodTurns s p hp, or_iff_left (edge_notMem_commandTurns s), edge_mem_edgeTurns_iff]

end Machine

open Machine

/-- Settles O5: ADVANCE answers `State.tick`, and no other rule changes the clock. -/
theorem advanceMovesOnlyTheClock : Obligations.AdvanceMovesOnlyTheClock := by
  refine ⟨fun s d => ⟨s.tick d, exec_advance s d, rfl, rfl⟩, fun i s t h hne => ?_, rfl⟩
  by_contra hno
  exact hne ((exec_eq_next_iff_fires.mp h).clock_eq fun d hd => hno ⟨d, hd⟩)

/-- Settles O6: EDGE answers `State.capture`, whose log reads the delta in the window's slot and is the old one outside
the window. -/
theorem edgeCapturesDelta : Obligations.EdgeCapturesDelta := by
  refine ⟨fun s => ⟨s.capture, exec_edge s, rfl, rfl, fun i => ?_, logAfterEdge_outside s, rfl⟩,
    rfl, rfl, rfl, rfl⟩
  rw [State.capture_edgeLog, read_logAfterEdge]
  exact if_congr (and_congr_right' eq_comm) rfl rfl

/-- Settles O7: every rule of the cycle keeps a complete capture and its log. -/
theorem extraEdgesLeaveTheLog : Obligations.ExtraEdgesLeaveTheLog := by
  intro s is hs hcycle
  constructor
  · refine exists_runRules_of_keeps (P := fun u => u.edgeLog = s.edgeLog ∧ u.captureComplete = true) ?_ ⟨rfl, hs⟩
    rintro i hi u v ⟨hlog, hu⟩ hf
    obtain ⟨hlog', hv⟩ := hf.keeps_complete_log (withinCycle_iff.mp hcycle i hi) hu
    exact ⟨hlog'.trans hlog, hv⟩
  · rw [exec_edge, capture_of_captureComplete hs]

/-- Settles O8: TRIGGER starts with no edge captured, every rule of the cycle keeps the deltas of the edges so far, and
at the end those are all the edges of the list. -/
theorem fullCaptureHoldsFortyDeltas : Obligations.FullCaptureHoldsFortyDeltas := by
  refine ⟨fun s is ts hs hwf hskip hcycle hts hlen => ?_, rfl, rfl, rfl⟩
  have hwindow : s.cfg.skip + s.cfg.logDepth < 2 ^ s.cfg.cntW := Config.window_lt_two_pow hwf
  obtain ⟨t, hrun, ht⟩ := exists_runRules_of_edgeTimes (P := State.HoldsDeltas s.cfg)
    (fun i hi => Fires.holdsDeltas hskip hwindow (withinCycle_iff.mp hcycle i hi)) (holdsDeltas_arm s)
  rw [List.nil_append, State.arm_cfg, State.arm_clock, ← hts] at ht
  refine ⟨t, by rw [runRules, exec_trigger_of_ready hs]; exact hrun, ?_, fun k hk => ht.slots k hk (by omega)⟩
  rw [ht.counter, hlen, Nat.min_eq_left (by omega)]

/-- Settles O10: an EDGE keeps the ceiling, and each rule fires alike from two counters past the window. -/
theorem counterCeilingUnobservable : Obligations.CounterCeilingUnobservable := by
  refine ⟨fun s hs => ⟨s.capture, exec_edge s, ?_⟩, fun i s c d hc hd => ?_, rfl⟩
  · rw [State.capture_edgeCounter, hs, satInc_ceiling]
  · obtain ⟨t, ht⟩ := exists_exec_eq_next i { s with edgeCounter := c }
    obtain ⟨d', hd', hpast⟩ := Fires.with_edgeCounter_past
      (s := { s with edgeCounter := c }) ((captureComplete_iff _).mpr hc) hd (exec_eq_next_iff_fires.mp ht)
    exact ⟨t, t.edgeCounter, d', ht, exec_eq_next_iff_fires.mpr hd', hpast⟩

/-- Settles O11: every rule keeps the timestamps behind the clock, and a difference of two such samples is the true
one. -/
theorem deltaIsElapsedTime : Obligations.DeltaIsElapsedTime := by
  constructor
  · intro i s hs hw
    obtain ⟨t, ht⟩ := exists_exec_eq_next i s
    exact ⟨t, ht, (exec_eq_next_iff_fires.mp ht).timestampsPast hs hw⟩
  · rintro s k ⟨href, -⟩ ⟨-, -, -, hclock, -, -⟩ hk hcount
    refine ⟨s.capture, exec_edge s, ?_⟩
    rw [State.capture_edgeLog, read_logAfterEdge, if_pos ⟨hk, hcount.symm⟩, subMod_of_le href hclock]

/-- Settles O12: a rule that is left out changes nothing a capture reads. -/
theorem otherRulesDoNotDisturbCapture : Obligations.OtherRulesDoNotDisturbCapture := by
  intro s is hcycle
  obtain ⟨t, u, ht, hu, h⟩ := SameCapture.runRules_filter (withinCycle_iff.mp hcycle) (SameCapture.refl s)
  exact ⟨t, u, ht, hu, h.edgeLog, h.edgeCounter, h.referenceTime, h.clock⟩

/-- Settles O37: the reset detector has three high levels before the list's, and a period without `rst` puts EDGE on the
agenda exactly if the detector raises an event. -/
theorem detectorRaisesEachRiseOnce : Obligations.DetectorRaisesEachRiseOnce := by
  constructor
  · intro levels a b
    rw [edgesRaised_append_pair]
    exact countRises_high_high levels
  · intro s p rest h0 ha hp
    refine ⟨_, step_of_fetchTurn_wiring h0 ha rfl, ?_, (edge_mem_periodTurns_iff hp).trans (rising_iff _), rfl⟩
    rw [runPeriod_detector hp]
    rfl

end Sys2Proof
end

section
/-! PROOFS. The bit decoder (42_bit_decoder.md): the threshold, the packing of the fields, and what a DECODE depends
on. -/

namespace Sys2Proof

namespace Machine

variable {s t u : State} {i : Instr} {is : List Instr}

/-! One DECODE (R150, R196). -/

/-- The state that a DECODE leaves when it fires. -/
def State.afterDecode (s : State) : State :=
  (s.conclude s.decodeStatus s.decodedReading).answer (decodeResult s.decodeStatus s.decodedReading)

theorem exec_decode_of_ready (hs : s.seqPhase = .ready) : exec .decode s = .next s.afterDecode :=
  exec_eq_next_iff_fires.mpr (.decode hs)

@[simp] theorem afterDecode_reading (s : State) :
    s.afterDecode.reading = if s.decodeStatus = .ok then s.decodedReading else s.reading := rfl

@[simp] theorem afterDecode_results (s : State) :
    s.afterDecode.results = s.results ++ [decodeResult s.decodeStatus s.decodedReading] := rfl

/-- With every option off the pair is always stored and answered, under the status OK (R150). -/
theorem afterDecode_baseline (hb : s.cfg.baseline) :
    s.afterDecode = (s.conclude .ok s.decodedReading).answer (.decoded .ok (some s.decodedReading)) := by
  rw [State.afterDecode, decodeStatus_baseline s hb]
  rfl

theorem exec_decode_baseline (hs : s.seqPhase = .ready) (hb : s.cfg.baseline) :
    exec .decode s = .next ((s.conclude .ok s.decodedReading).answer (.decoded .ok (some s.decodedReading))) := by
  rw [exec_decode_of_ready hs, afterDecode_baseline hb]

/-! The threshold and the packing (R151, R152). -/

/-- The bit of a slot just written compares the sample written with the threshold. -/
theorem bit_write_same (s : State) (k v : Nat) :
    State.bit { s with edgeLog := s.edgeLog.write k v } k = decide (s.cfg.threshNs < v) := by
  rw [State.bit, Memory.read_write_same]

theorem bitsFrom_succ (s : State) (first n : Nat) :
    s.bitsFrom first (n + 1) = s.bitsFrom first n ++ [s.bit (first + n)] := by
  simp [State.bitsFrom, List.range_succ]

/-- A group of slots packs to the sum of its bits, the first with the highest weight: each further bit doubles the
weights of those before it. -/
theorem pack_bitsFrom_eq_sum (s : State) (first n : Nat) :
    packMsbFirst (s.bitsFrom first n) =
      ∑ k ∈ Finset.Ico first (first + n),
        (if s.cfg.threshNs < s.edgeLog.read k then 1 else 0) * 2 ^ (first + n - 1 - k) := by
  induction n with
  | zero => simp [State.bitsFrom, packMsbFirst]
  | succ n ih =>
    rw [bitsFrom_succ, packMsbFirst_concat, ih, ← Nat.add_assoc, Finset.sum_Ico_succ_top (Nat.le_add_right first n),
      Finset.mul_sum]
    congr 1
    · refine Finset.sum_congr rfl fun k hk => ?_
      have hweight : first + n + 1 - 1 - k = (first + n - 1 - k) + 1 := by
        have hlt := (Finset.mem_Ico.mp hk).2
        omega
      rw [hweight, pow_succ]
      ring
    · simp [State.bit, Bool.toNat, Bool.cond_decide]

/-! What a DECODE depends on (R153, R155, R156). -/

/-- Slots that read alike, under the same threshold, give the same bits. -/
theorem bitsFrom_congr {first n : Nat} (hthresh : s.cfg.threshNs = u.cfg.threshNs)
    (hslots : ∀ k < first + n, s.edgeLog.read k = u.edgeLog.read k) : s.bitsFrom first n = u.bitsFrom first n := by
  refine List.map_congr_left fun k hk => ?_
  rw [State.bit, State.bit, hthresh, hslots _ (Nat.add_lt_add_left (List.mem_range.mp hk) first)]

/-- Two states that agree in all that the decoded pair is computed from. -/
structure SameFields (s u : State) : Prop where
  threshNs : s.cfg.threshNs = u.cfg.threshNs
  fieldW : s.cfg.fieldW = u.cfg.fieldW
  slots : ∀ k < 2 * s.cfg.fieldW, s.edgeLog.read k = u.edgeLog.read k

theorem SameFields.trans {v : State} (h : SameFields s u) (h' : SameFields u v) : SameFields s v where
  threshNs := h.threshNs.trans h'.threshNs
  fieldW := h.fieldW.trans h'.fieldW
  slots k hk := (h.slots k hk).trans (h'.slots k (h.fieldW ▸ hk))

theorem SameFields.decodedReading (h : SameFields s u) : s.decodedReading = u.decodedReading := by
  have hhum : s.bitsFrom 0 s.cfg.fieldW = u.bitsFrom 0 s.cfg.fieldW :=
    bitsFrom_congr h.threshNs fun k hk => h.slots k (by omega)
  have htemp : s.bitsFrom s.cfg.fieldW s.cfg.fieldW = u.bitsFrom s.cfg.fieldW s.cfg.fieldW :=
    bitsFrom_congr h.threshNs fun k hk => h.slots k (by omega)
  rw [State.decodedReading, State.decodedHumidity, State.decodedTemperature, hhum, htemp, h.fieldW]
  rfl

/-- Two states that agree in all that a DECODE's status and result are computed from, whatever the options. -/
structure SameDecode (s u : State) : Prop where
  cfg : s.cfg = u.cfg
  triggeredOnce : s.triggeredOnce = u.triggeredOnce
  edgeCounter : s.edgeCounter = u.edgeCounter
  slots : ∀ k < 2 * s.cfg.fieldW + 8, s.edgeLog.read k = u.edgeLog.read k

theorem SameDecode.sameFields (h : SameDecode s u) : SameFields s u where
  threshNs := by rw [h.cfg]
  fieldW := by rw [h.cfg]
  slots k hk := h.slots k (Nat.lt_add_right 8 hk)

theorem SameDecode.decodedChecksum (h : SameDecode s u) : s.decodedChecksum = u.decodedChecksum := by
  rw [State.decodedChecksum, State.decodedChecksum, ← h.cfg, bitsFrom_congr h.sameFields.threshNs h.slots]

theorem SameDecode.decodeStatus (h : SameDecode s u) : s.decodeStatus = u.decodeStatus := by
  have hcomplete : s.captureComplete = u.captureComplete := by
    rw [State.captureComplete, State.captureComplete, h.cfg, h.edgeCounter]
  rw [State.decodeStatus, State.decodeStatus, h.cfg, h.triggeredOnce, hcomplete, h.sameFields.decodedReading,
    h.decodedChecksum]

/-- A DECODE writes nothing that its status and result are computed from. -/
theorem sameDecode_afterDecode (s : State) : SameDecode s.afterDecode s := ⟨rfl, rfl, rfl, fun _ _ => rfl⟩

/-- A rule that writes no field slot leaves all that the pair is computed from: EDGE's slot is then none of theirs, and
the other rules, RESET apart, write no slot at all (R156). -/
theorem Fires.sameFields (hi : WritesNoFieldSlot i s) (h : Fires s i t) : SameFields t s := by
  obtain ⟨hreset, hedge⟩ := hi
  cases h with
  | reset => exact absurd rfl hreset
  | edge =>
    refine ⟨rfl, rfl, fun k hk => ?_⟩
    rw [State.capture_cfg] at hk
    have houtside := hedge rfl
    have hother : ¬ (k < s.cfg.logDepth ∧ s.cfg.skip + k = s.edgeCounter) := by omega
    rw [State.capture_edgeLog, read_logAfterEdge, if_neg hother]
  | waits | trigger | decode | nop | read | holds | release | advance => exact ⟨rfl, rfl, fun _ _ => rfl⟩

/-- A property that every rule keeps under a premise still holds after a list along which the premise holds. -/
theorem runRules_keeps_of_alongRun {P : State → Prop} {Q : Instr → State → Prop}
    (rules : ∀ {i : Instr} {s t : State}, Q i s → P s → Fires s i t → P t)
    (hs : P s) (hq : alongRun Q is s) (hrun : runRules is s = .next t) : P t := by
  induction is generalizing s with
  | nil => cases hrun; exact hs
  | cons i is ih =>
    obtain ⟨u, hu⟩ := exists_exec_eq_next i s
    rw [alongRun, hu] at hq
    rw [runRules, hu] at hrun
    obtain ⟨hi, his⟩ := hq
    exact ih (rules hi hs (exec_eq_next_iff_fires.mp hu)) his hrun

end Machine

open Machine

/-- Settles O16: in the baseline the pair stored and answered is the decoded one, and each of its numbers is the sum
over its group of slots, with groups of 16. -/
theorem baselinePackingIsMsbFirst : Obligations.BaselinePackingIsMsbFirst := by
  refine ⟨fun s hs hb hw => ?_, rfl⟩
  have hhum : s.decodedHumidity = packMsbFirst (s.bitsFrom 0 16) := by rw [State.decodedHumidity, hw]
  have htemp : s.decodedTemperature = packMsbFirst (s.bitsFrom 16 16) := by rw [State.decodedTemperature, hw]
  refine ⟨_, exec_decode_baseline hs hb, ?_, htemp.trans (pack_bitsFrom_eq_sum s 16 16), rfl, rfl, rfl⟩
  rw [Finset.range_eq_Ico]
  exact hhum.trans (pack_bitsFrom_eq_sum s 0 16)

/-- Settles O18: in the baseline the pair stored and answered is the decoded one, which the fields' slots and the
threshold fix. -/
theorem baselineReadingDependsOnSlotsOnly : Obligations.BaselineReadingDependsOnSlotsOnly := by
  refine ⟨fun s u hs hu hbs hbu hthresh hw hslots =>
    ⟨_, _, exec_decode_baseline hs hbs, exec_decode_baseline hu hbu, ?_⟩, rfl⟩
  have hread : s.decodedReading = u.decodedReading := SameFields.decodedReading ⟨hthresh, hw, hslots⟩
  rw [hread]
  exact ⟨rfl, rfl, rfl, rfl, rfl⟩

/-- Settles O19: a DECODE leaves all that it is computed from; in the baseline that is the fields, which the rules
between leave too; and two states that agree in it answer alike. -/
theorem decodeIsIdempotent : Obligations.DecodeIsIdempotent := by
  refine ⟨fun s hs => ?_, fun s is hs hb => ?_, fun s u hs hu hcfg honce hcount hslots => ?_⟩
  · have hsame : SameDecode s.afterDecode s := sameDecode_afterDecode s
    refine ⟨s.afterDecode, s.afterDecode.afterDecode, decodeResult s.decodeStatus s.decodedReading,
      exec_decode_of_ready hs, exec_decode_of_ready (s := s.afterDecode) hs, ?_, hsame.decodeStatus,
      afterDecode_results s, ?_⟩
    · rw [afterDecode_reading s.afterDecode, hsame.decodeStatus, hsame.sameFields.decodedReading, afterDecode_reading]
      split_ifs <;> rfl
    · rw [afterDecode_results, hsame.decodeStatus, hsame.sameFields.decodedReading, afterDecode_results,
        List.append_assoc, List.singleton_append]
  · obtain ⟨u, hrun, hcfg⟩ := exists_runRules_of_keeps (P := fun v => v.cfg = s.cfg) (is := is) (s := s.afterDecode)
      (fun _ _ _ _ hv hf => hf.cfg_eq.trans hv) rfl
    refine ⟨s.afterDecode, u, .decoded .ok (some s.decodedReading), exec_decode_of_ready hs, ?_, hrun,
      fun halong hu => ⟨u.afterDecode, exec_decode_of_ready hu, ?_⟩⟩
    · rw [afterDecode_baseline hb]
      rfl
    · have hsame : SameFields u s := runRules_keeps_of_alongRun (P := fun v => SameFields v s)
        (fun hi hv hf => (hf.sameFields hi).trans hv) (sameDecode_afterDecode s).sameFields halong hrun
      rw [afterDecode_baseline (s := u) (hcfg ▸ hb), afterDecode_baseline hb, hsame.decodedReading]
      exact ⟨rfl, rfl, rfl⟩
  · have hsame : SameDecode s u := ⟨hcfg, honce, hcount, hslots⟩
    refine ⟨s.afterDecode, u.afterDecode, decodeResult s.decodeStatus s.decodedReading, exec_decode_of_ready hs,
      exec_decode_of_ready hu, hsame.decodeStatus, rfl, ?_⟩
    rw [hsame.decodeStatus, hsame.sameFields.decodedReading, afterDecode_results]

/-- Settles O17: a bit is the comparison of its sample, and the sample just written is the one compared. -/
theorem thresholdIsStrictAndUnsigned : Obligations.ThresholdIsStrictAndUnsigned := by
  refine ⟨bit_eq_true_iff, fun s k hthresh => ?_, rfl⟩
  simp only [bit_write_same, hthresh]
  decide

end Sys2Proof
end

section
/-! PROOFS. The reading store and the controller (43_store_and_controller.md): READ, NOP, and the transition table of
`ctrl_state`. -/

namespace Sys2Proof

namespace Machine

variable {s t : State} {i : Instr}

/-- DECODE and RESET are the only writers of the stored pair (R170). -/
theorem Fires.reading_eq (hi : i ≠ .decode ∧ i ≠ .reset) (h : Fires s i t) : t.reading = s.reading := by
  obtain ⟨hdecode, hreset⟩ := hi
  cases h with
  | decode => exact absurd rfl hdecode
  | reset => exact absurd rfl hreset
  | waits | trigger | nop | read | edge | holds | release | advance => rfl

/-- A command turn in READY on a byte that is neither of the two commands spends turn and byte (R172, R92). -/
theorem step_command_nop_of_ready {b : Byte} {bs : List Byte} {rest : List Turn} (h0 : s.cfg.setupOk = true)
    (hs : s.seqPhase = .ready) (ha : s.agenda = .command :: rest) (hp : s.cmdPort = b :: bs)
    (ht : b ≠ s.cfg.cmdTrigger) (hd : b ≠ s.cfg.cmdDecode) :
    step s = .next { s with agenda := rest, cmdPort := bs } := by
  rw [step_command_of_ready h0 hs ha hp, decodeByte_of_ne ht hd, exec_nop]

end Machine

open Machine

/-- Settles O23: READ appends the stored pair to the host's results, and every rule of the list keeps that pair. -/
theorem readAnswersTheStoredPair : Obligations.ReadAnswersTheStoredPair := by
  refine ⟨fun s => ⟨s.answer (.reading s.reading), exec_read s, rfl, rfl⟩, fun s is his => ?_⟩
  obtain ⟨t, hrun, hread⟩ := exists_runRules_of_keeps (P := fun u => u.reading = s.reading) (s := s)
    (fun i hi _ _ hu hf => (hf.reading_eq (his i hi)).trans hu) rfl
  refine ⟨t, t.answer (.reading t.reading), hrun, exec_read t, ?_⟩
  rw [State.answer_results, hread]

/-- Settles O26: TRIGGER and DECODE fire in READY and wait in HOLD, so the phase decides their row of the table; of the
other rules RESET alone writes the controller. -/
theorem controllerTransitions : Obligations.ControllerTransitions := by
  intro i s t h
  cases exec_eq_next_iff_fires.mp h with
  | waits hi hs =>
    have hnot : ¬ s.seqPhase = .ready := by simp [hs]
    cases i with
    | trigger | decode => exact (if_neg hnot).symm
    | nop b => rfl
    | read | edge | release | advance d | reset => cases hi
  | trigger hs | decode hs => exact (if_pos hs).symm
  | nop | read | edge | holds | release | advance | reset => rfl

/-- Settles O25: a NOP answers its state, and the command turn in READY hands it one without the turn and the byte. -/
theorem nopOnlyConsumesItsByte : Obligations.NopOnlyConsumesItsByte :=
  ⟨fun s b _ => exec_nop s b, fun _ _ _ _ => step_command_nop_of_ready⟩

end Sys2Proof
end

section
/-! PROOFS. The hardening options (44_hardening_options.md): the status of a DECODE, and the edges it counts. -/

namespace Sys2Proof

namespace Machine

variable {s t : State} {i : Instr} {is : List Instr} {c : Config} {ts : List Nat}

/-! The status of a DECODE (R191 to R195). -/

/-- The first check that fails, in the order of R195, is the status. -/
theorem decodeStatus_eq (s : State) :
    s.decodeStatus =
      if s.cfg.hRejectUntriggered = true ∧ s.triggeredOnce = false then .rejected
      else if s.cfg.hComplete = true ∧ s.edgeCounter < s.cfg.skip + s.cfg.logDepth then .incomplete
      else if s.cfg.hChecksum = true ∧ checksumOf s.decodedReading ≠ s.decodedChecksum then .checksumFail
      else .ok := by
  simp [State.decodeStatus, State.captureComplete]

/-- Once triggered, and with `H_COMPLETE`, a DECODE is INCOMPLETE exactly before the window's end: no check comes before
this one (R191, R195). -/
theorem decodeStatus_eq_incomplete_iff (honce : s.triggeredOnce = true) (hopt : s.cfg.hComplete = true) :
    s.decodeStatus = .incomplete ↔ s.edgeCounter < s.cfg.skip + s.cfg.logDepth := by
  rw [decodeStatus_eq, if_neg (by simp [honce])]
  by_cases hlt : s.edgeCounter < s.cfg.skip + s.cfg.logDepth
  · rw [if_pos ⟨hopt, hlt⟩, iff_true_right hlt]
  · rw [if_neg fun h => hlt h.2, iff_false_right hlt]
    split_ifs <;> nofun

/-- A DECODE that does not report OK keeps the Reading (R196). -/
theorem afterDecode_reading_of_ne_ok (h : s.decodeStatus ≠ .ok) : s.afterDecode.reading = s.reading := if_neg h

/-- The four bytes of the two fields, summed modulo 256 (R192). -/
theorem checksumOf_eq_sum (r : Reading) :
    checksumOf r =
      (r.humidity / 256 % 256 + r.humidity % 256 + r.temperature / 256 % 256 + r.temperature % 256) % 256 := by
  simp [checksumOf, byteSum, Nat.add_assoc]

/-- The humidity's bits from the top are those of the first slots (R152). -/
theorem testBit_decodedHumidity {k : Nat} (hk : k < s.cfg.fieldW) :
    s.decodedHumidity.testBit (s.cfg.fieldW - 1 - k) = s.bit k := by
  rw [State.decodedHumidity, testBit_pack_bitsFrom s 0 _ k hk, Nat.zero_add]

/-! The edges of a cycle (R191): they are counted up to the ceiling, whatever `SKIP` is. -/

/-- In a cycle under the parameters `c` a TRIGGER has fired and the edges at `ts` have been counted. -/
structure State.CountsEdges (c : Config) (ts : List Nat) (s : State) : Prop where
  cfg : s.cfg = c
  triggeredOnce : s.triggeredOnce = true
  counter : s.edgeCounter = min ts.length (2 ^ c.cntW - 1)

theorem countsEdges_arm (s : State) : s.arm.CountsEdges s.cfg [] := ⟨rfl, rfl, (Nat.zero_min _).symm⟩

/-- An EDGE counts itself, and no other rule of the cycle counts. -/
theorem Fires.countsEdges (hcycle : i ≠ .trigger ∧ i ≠ .reset) (hs : s.CountsEdges c ts) (h : Fires s i t) :
    t.CountsEdges c (ts ++ edgeTimes s.cfg.sampleW [i] s.clock) := by
  obtain ⟨rfl, honce, hcount⟩ := hs
  cases h with
  | trigger => exact absurd rfl hcycle.1
  | reset => exact absurd rfl hcycle.2
  | edge =>
    refine ⟨rfl, honce, ?_⟩
    rw [State.capture_edgeCounter, hcount, satInc_min_ceiling, edgeTimes, edgeTimes, List.length_append,
      List.length_singleton]
  | waits hi =>
    rw [edgeTimes_cons_of_command hi, edgeTimes, List.append_nil]
    exact ⟨rfl, honce, hcount⟩
  | decode | nop | read | holds | release | advance =>
    rw [edgeTimes, edgeTimes, List.append_nil]
    exact ⟨rfl, honce, hcount⟩

/-- The ceiling is past the window, so the counter is below the window's end exactly if the number of edges is. -/
theorem State.CountsEdges.counter_lt_iff (hwf : c.wf = true) (h : s.CountsEdges c ts) :
    s.edgeCounter < c.skip + c.logDepth ↔ ts.length < c.skip + c.logDepth := by
  have hwindow : c.skip + c.logDepth < 2 ^ c.cntW := Config.window_lt_two_pow hwf
  rw [h.counter]
  omega

end Machine

open Machine

/-- Settles O15: in READY a DECODE leaves `State.afterDecode`, whose pair and checksum byte are packed from the bits of
the log; in HOLD it waits. -/
theorem decodeReportsAndStores : Obligations.DecodeReportsAndStores := by
  refine ⟨fun s hs => ?_, fun s => exec_command_of_hold rfl,
    fun c rest hc => by rw [decode_cons, decodeByte_cmdDecode hc], rfl, rfl, rfl, rfl⟩
  refine ⟨s.decodedHumidity, s.decodedTemperature, s.decodedChecksum, checksumOf s.decodedReading, s.decodeStatus,
    s.afterDecode, ⟨pack_bitsFrom_lt s 0 _, fun i hi => testBit_decodedHumidity hi⟩,
    ⟨pack_bitsFrom_lt s _ _, testBit_pack_bitsFrom s _ _⟩, ⟨pack_bitsFrom_lt s _ 8, testBit_pack_bitsFrom s _ 8⟩,
    checksumOf_eq_sum s.decodedReading, decodeStatus_eq s, exec_decode_of_ready hs, afterDecode_reading s, rfl, rfl,
    rfl, ?_, ?_, ?_, ?_, afterDecode_results s, rfl⟩
  all_goals exact congrArg DecStatus.code

/-- Settles O21: TRIGGER starts with no edge counted, every rule of the cycle keeps the count, and DECODE compares it
with the window's end; INCOMPLETE is not OK, so the Reading is kept. -/
theorem completenessCountsTheCycle : Obligations.CompletenessCountsTheCycle := by
  intro s is hs hwf hopt hcycle
  obtain ⟨t, hrun, ht⟩ := exists_runRules_of_edgeTimes (P := State.CountsEdges s.cfg)
    (fun i hi => Fires.countsEdges (withinCycle_iff.mp hcycle i hi)) (countsEdges_arm s)
  rw [List.nil_append, State.arm_cfg, State.arm_clock] at ht
  refine ⟨t, by rw [runRules, exec_trigger_of_ready hs]; exact hrun, fun hready =>
    ⟨t.afterDecode, exec_decode_of_ready hready, ?_, fun hst => afterDecode_reading_of_ne_ok ?_⟩⟩
  · have hiff := decodeStatus_eq_incomplete_iff ht.triggeredOnce (ht.cfg ▸ hopt)
    rw [ht.cfg] at hiff
    exact hiff.trans (ht.counter_lt_iff hwf)
  · have hincomplete : t.decodeStatus = .incomplete := hst
    rw [hincomplete]
    nofun

end Sys2Proof
end

section
/-! PROOFS. The exceptions (60_exceptions.md): that no operation stops the block, and an EDGE and a command in the two
orders. -/

namespace Sys2Proof

/-- The first edge of a cycle is counted, unless the counter has no bit (41_pulse_capture.md R133). -/
theorem satInc_zero {w : Nat} (h : 1 < 2 ^ w) : satInc w 0 = 1 := if_pos (Nat.sub_pos_of_lt h)

namespace Machine

variable {s t : State} {i j : Instr}

/-! What stops (R210, R224). -/

/-- Without setup the block offers no step (R224). -/
theorem step_of_not_setupOk (h0 : s.cfg.setupOk = false) : step s = .fault .setupFailed := by
  have hfetch : s.fetch = .stuck .setupFailed := if_neg (by simp [h0])
  rw [step, hfetch]

/-- With setup every step answers a next state: it fires a rule, or moves only the ports. -/
theorem exists_step_eq_next (h0 : s.cfg.setupOk = true) : ∃ t, step s = .next t := by
  unfold step
  obtain ⟨i, u, hf, -⟩ | ⟨u, hf, -⟩ | ⟨hno, -⟩ := fetch_cases s
  · rw [hf]
    exact exists_exec_eq_next i u
  · rw [hf]
    exact ⟨u, rfl⟩
  · exact absurd h0 (by simp [hno])

/-! Two whole rules, one after the other (R215). -/

theorem runRules_singleton (i : Instr) (s : State) : runRules [i] s = exec i s := by
  rw [runRules]
  cases exec i s <;> rfl

theorem runRules_pair (h : exec i s = .next t) : runRules [i, j] s = exec j t := by
  rw [runRules, h]
  exact runRules_singleton j t

theorem runRules_edge_pair (i : Instr) (s : State) : runRules [.edge, i] s = exec i s.capture :=
  runRules_pair (exec_edge s)

theorem runRules_pair_edge (h : exec i s = .next t) : runRules [i, .edge] s = .next t.capture :=
  (runRules_pair h).trans (exec_edge t)

/-- NOP, READ and RELEASE neither read nor write what an EDGE writes: each fires after it as before it. -/
theorem Fires.capture (hi : i = .read ∨ i = .release ∨ ∃ b, i = .nop b) (h : Fires s i t) :
    Fires s.capture i t.capture := by
  cases h with
  | waits hc hs => exact .waits hc hs
  | nop b => exact .nop b
  | read => exact .read
  | holds hs => exact .holds hs
  | release hs => exact .release hs
  | trigger | decode | edge | advance | reset => simp at hi

/-- A DECODE writes nothing that an EDGE reads, so the log after an EDGE is the same behind it. -/
theorem logAfterEdge_afterDecode (s : State) : s.afterDecode.logAfterEdge = s.logAfterEdge := rfl

/-- In the baseline a DECODE always stores the decoded pair (42_bit_decoder.md R150). -/
theorem afterDecode_reading_baseline (hb : s.cfg.baseline) : s.afterDecode.reading = s.decodedReading := by
  rw [afterDecode_reading, if_pos (decodeStatus_baseline s hb)]

/-- The temperature's bits from the top are those of the slots after the humidity's (42_bit_decoder.md R152). -/
theorem testBit_decodedTemperature {k : Nat} (hlow : s.cfg.fieldW ≤ k) (hk : k < 2 * s.cfg.fieldW) :
    s.decodedTemperature.testBit (2 * s.cfg.fieldW - 1 - k) = s.bit k := by
  have hweight : 2 * s.cfg.fieldW - 1 - k = s.cfg.fieldW - 1 - (k - s.cfg.fieldW) := by omega
  rw [hweight, State.decodedTemperature, testBit_pack_bitsFrom s _ _ _ (by omega), Nat.add_sub_cancel' hlow]

/-- An EDGE in the window stores its delta in the slot of the counter (41_pulse_capture.md R133). -/
theorem read_capture_of_slot {k : Nat} (hk : k < s.cfg.logDepth) (hcount : s.edgeCounter = s.cfg.skip + k) :
    s.capture.edgeLog.read k = subMod s.cfg.sampleW s.clock s.referenceTime := by
  rw [State.capture_edgeLog, read_logAfterEdge, if_pos ⟨hk, hcount.symm⟩]

/-- So the slot's bit behind the EDGE compares the new sample. -/
theorem bit_capture_of_slot {k : Nat} (hk : k < s.cfg.logDepth) (hcount : s.edgeCounter = s.cfg.skip + k) :
    s.capture.bit k = decide (s.cfg.threshNs < subMod s.cfg.sampleW s.clock s.referenceTime) := by
  rw [State.bit, read_capture_of_slot hk hcount, State.capture_cfg]

/-! The rules of one `clk` period (log 10). -/

theorem edgeTurns_of_rising (h : s.detector.rising = true) : s.edgeTurns = [.edge] := if_pos h

/-- With no RELEASE enabled, a byte at a ready port is the command context's rule. -/
theorem commandTurns_of_byte (hrel : s.releaseEnabled = false) (hv : s.cmdValid = true) (hs : s.seqPhase = .ready) :
    s.commandTurns = [.command] := by
  simp [State.commandTurns, hrel, hv, hs]

theorem periodTurns_edgeFirst {p : Pins} (hp : p.rst = false) (ho : s.cfg.sameInstantOrder = .edgeFirst) :
    s.periodTurns p = s.edgeTurns ++ s.commandTurns := by
  simp [State.periodTurns, hp, ho]

theorem periodTurns_cmdFirst {p : Pins} (hp : p.rst = false) (ho : s.cfg.sameInstantOrder = .cmdFirst) :
    s.periodTurns p = s.commandTurns ++ s.edgeTurns := by
  simp [State.periodTurns, hp, ho]

end Machine

open Machine

/-- Settles O38: `exec` always answers a next state, and a fetch is stuck only without setup. -/
theorem noOperationStops : Obligations.NoOperationStops :=
  ⟨exists_exec_eq_next, fun _ => exists_step_eq_next, fun _ => step_of_not_setupOk⟩

/-- Settles O36: behind a TRIGGER the EDGE is the cycle's first, before it the TRIGGER takes its count away; behind the
EDGE a DECODE reads the log with the new sample, before it the log as it was; the other rules fire alike on both sides
of the EDGE; and each context has one rule in the period. -/
theorem sameInstantOrdersDiffer : Obligations.SameInstantOrdersDiffer := by
  refine ⟨fun s hs => ?_, fun s k hs hb hk hfield hcount => ?_, fun s i hi => ?_,
    fun s p hp hrise hrel hv hs => ?_⟩
  · refine ⟨s.capture.arm, s.arm.capture,
      (runRules_edge_pair _ _).trans (exec_trigger_of_ready (s := s.capture) hs),
      runRules_pair_edge (exec_trigger_of_ready hs), rfl, satInc_zero, rfl, rfl, fun hskip => ?_⟩
    exact logAfterEdge_outside s.arm (.inl hskip)
  · have hnew : s.capture.afterDecode.reading = s.capture.decodedReading :=
      afterDecode_reading_baseline (s := s.capture) hb
    have hold : s.afterDecode.capture.reading = s.decodedReading := afterDecode_reading_baseline hb
    refine ⟨s.capture.afterDecode, s.afterDecode.capture,
      (runRules_edge_pair _ _).trans (exec_decode_of_ready (s := s.capture) hs),
      runRules_pair_edge (exec_decode_of_ready hs), (logAfterEdge_afterDecode s).symm, rfl, rfl,
      read_capture_of_slot hk hcount, fun hhum => ?_, fun htemp => ?_⟩
    · rw [hnew, hold]
      exact ⟨(testBit_decodedHumidity (s := s.capture) hhum).trans (bit_capture_of_slot hk hcount),
        testBit_decodedHumidity hhum⟩
    · rw [hnew, hold]
      exact ⟨(testBit_decodedTemperature (s := s.capture) htemp hfield).trans (bit_capture_of_slot hk hcount),
        testBit_decodedTemperature htemp hfield⟩
  · obtain ⟨t, ht⟩ := exists_exec_eq_next i s
    have hafter : Fires s.capture i t.capture := (exec_eq_next_iff_fires.mp ht).capture hi
    exact ⟨t.capture, (runRules_edge_pair i s).trans (exec_eq_next_iff_fires.mpr hafter), runRules_pair_edge ht⟩
  · have hedge : s.edgeTurns = [.edge] := edgeTurns_of_rising hrise
    have hcommand : s.commandTurns = [.command] := commandTurns_of_byte hrel hv hs
    constructor
    · intro ho
      rw [periodTurns_edgeFirst hp ho, hedge, hcommand, List.singleton_append]
    · intro ho
      rw [periodTurns_cmdFirst hp ho, hedge, hcommand, List.singleton_append]

end Sys2Proof
end

section
/-! PROOFS. Reset and the hazards (70_reset_and_hazards.md): RESET, the named premises, what a cycle has not reached yet,
and the block left to itself. -/

namespace Sys2Proof

variable {c : Config}

/-- In a well-formed configuration the two fields and the checksum byte have their slots in the log. -/
theorem Config.fields_le_logDepth (h : c.wf = true) : 2 * c.fieldW + 8 ≤ c.logDepth := by
  simp only [Config.wf, Bool.and_eq_true, decide_eq_true_eq] at h
  obtain ⟨⟨⟨-, hle⟩, -⟩, -⟩ := h
  exact hle

namespace Machine

variable {s t s₀ : State} {i : Instr} {is : List Instr} {ts : List Nat}

/-! RESET and its `clk` period (R240). -/

/-- In a period with `rst = 1` RESET is the only rule, and the detector is left to it (log 10). -/
theorem runPeriod_of_rst {p : Pins} (hp : p.rst = true) : s.runPeriod p = { s with agenda := .reset :: s.agenda } := by
  simp [State.runPeriod, State.periodTurns, hp]

/-! The status under `HOST_WAITS` (R243, R191). -/

/-- A complete capture is not reported as incomplete, whatever the options. -/
theorem decodeStatus_ne_incomplete (h : s.captureComplete = true) : s.decodeStatus ≠ .incomplete := by
  have hpass : ¬ (s.cfg.hComplete = true ∧ s.edgeCounter < s.cfg.skip + s.cfg.logDepth) := fun hi =>
    not_lt.mpr ((captureComplete_iff s).mp h) hi.2
  rw [decodeStatus_eq, if_neg hpass]
  split_ifs <;> nofun

/-! The block left to itself (R255, R226). -/

theorem ownTurn_of_byte (hs : s.seqPhase = .ready) (hv : s.cmdValid = true) : s.ownTurn = some .command := by
  simp [State.ownTurn, releaseEnabled_eq_false s (.inl hs), hv, hs]

/-- With no RELEASE enabled and no byte at a ready port the block has no turn of its own. -/
theorem ownTurn_eq_none (hr : s.releaseEnabled = false) (h : s.seqPhase = .hold ∨ s.cmdPort = []) :
    s.ownTurn = none := by
  have hno : (s.cmdValid && s.cmdReady) = false := by
    rcases h with h | h
    · rw [(cmdReady_false_iff s).mpr h, Bool.and_false]
    · simp [State.cmdValid, h]
  simp [State.ownTurn, hr, hno]

/-- An ended run has no byte at the port and no hold in progress (R254). -/
theorem port_and_phase_of_ended (h : s.ended = true) : s.cmdPort = [] ∧ s.seqPhase = .ready := by
  simp only [State.ended, Bool.and_eq_true, List.isEmpty_iff, cmdReady_iff] at h
  obtain ⟨hidle, -⟩ := h
  exact hidle

section
variable (h0 : s.cfg.setupOk = true) (ha : s.agenda = [])
include h0 ha

/-- Left to itself in READY, the block accepts the byte at its port (log 5). -/
theorem step_accepts_byte {b : Byte} {bs : List Byte} (hs : s.seqPhase = .ready) (hp : s.cmdPort = b :: bs) :
    step s = exec (decodeByte s.cfg b) { s with cmdPort := bs } := by
  have hown : s.ownTurn = some .command := ownTurn_of_byte hs (by simp [State.cmdValid, hp])
  have hd : decode s.cfg s.cmdPort = .ok (decodeByte s.cfg b, bs) := by rw [hp, decode_cons]
  have hf : s.fetch = .rule (decodeByte s.cfg b) { s with cmdPort := if s.cmdReady then bs else s.cmdPort } := by
    rw [fetch_nil s h0 ha, hown]
    exact fetchCommand_of_decode hd
  rw [step, hf, if_pos ((cmdReady_iff s).mpr hs)]

/-- With no turn of its own the block holds its registers. -/
theorem step_of_no_ownTurn (hown : s.ownTurn = none) : step s = .next s := by
  rw [step, fetch_nil s h0 ha, hown]

end

/-! The premises along a run (R252). -/

/-- Every list runs to its end. -/
theorem exists_runRules_eq_next (is : List Instr) (s : State) : ∃ t, runRules is s = .next t := by
  obtain ⟨t, hrun, -⟩ := exists_runRules_of_keeps (P := fun _ => True) (is := is) (s := s)
    (fun _ _ _ _ _ _ => trivial) trivial
  exact ⟨t, hrun⟩

/-- A premise along a run and a property of the list's rules hold together along the run. -/
theorem alongRun_and_of_forall_mem {P : Instr → State → Prop} {R : Instr → Prop} (hr : ∀ i ∈ is, R i)
    (h : alongRun P is s) : alongRun (fun i s => R i ∧ P i s) is s := by
  induction is generalizing s with
  | nil => trivial
  | cons i is ih =>
    obtain ⟨hi, his⟩ := List.forall_mem_cons.mp hr
    obtain ⟨u, hu⟩ := exists_exec_eq_next i s
    rw [alongRun, hu] at h ⊢
    obtain ⟨hp, hrest⟩ := h
    exact ⟨⟨hi, hp⟩, ih his hrest⟩

/-- In the hold that a TRIGGER in `s₀` began nothing has been counted, timed or logged since, and the pin is driven. -/
structure State.HeldSince (s s₀ : State) : Prop where
  edgeCounter : s.edgeCounter = 0
  referenceTime : s.referenceTime = s₀.clock
  holdStart : s.holdStart = s₀.clock
  pinDir : s.pinDir = .output
  edgeLog : s.edgeLog = s₀.edgeLog

theorem heldSince_arm (s : State) : s.arm.HeldSince s := ⟨rfl, rfl, rfl, rfl, rfl⟩

/-- No rule touches such a hold but its RELEASE, under `ENV_NO_EDGE_WHILE_DRIVEN` (R252): the driven pin shuts out the
EDGE. -/
theorem Fires.heldSince (hcycle : i ≠ .trigger ∧ i ≠ .reset) (hrelease : i ≠ .release)
    (henv : EnvNoEdgeWhileDriven i s) (hs : s.HeldSince s₀) (h : Fires s i t) : t.HeldSince s₀ := by
  cases h with
  | trigger => exact absurd rfl hcycle.1
  | reset => exact absurd rfl hcycle.2
  | release => exact absurd rfl hrelease
  | edge =>
    have hinput : s.pinDir = .input := henv rfl
    rw [hs.pinDir] at hinput
    cases hinput
  | waits | decode | nop | read | holds | advance =>
    exact ⟨hs.edgeCounter, hs.referenceTime, hs.holdStart, hs.pinDir, hs.edgeLog⟩

/-- A sensor that owes `n` edges, and is owed no other reply, sends just those (R252, log 18). -/
theorem length_edgeTimes_of_reply43From {n : Nat} (hrelease : ∀ i ∈ is, i ≠ .release)
    (h : reply43From (some n) is = true) (w clock : Nat) : (edgeTimes w is clock).length = n := by
  induction is generalizing n clock with
  | nil =>
    have hn : n = 0 := by simpa [reply43From] using h
    exact hn.symm
  | cons i is ih =>
    obtain ⟨hi, his⟩ := List.forall_mem_cons.mp hrelease
    cases i with
    | release => exact absurd rfl hi
    | edge =>
      cases n with
      | zero => cases h
      | succ n => exact congrArg Nat.succ (ih his h clock)
    | advance d => exact ih his h ((clock + d) % 2 ^ w)
    | trigger | decode | nop b | read | reset => exact ih his h clock

/-! What a cycle has counted and what it has not reached (R244, R134). -/

/-- From `s₀`, a state with no edge counted, the edges at `ts` have been counted; the slots they have not reached, and
with `SKIP` edges or fewer the whole log, are those of `s₀`. -/
structure State.CountsFrom (s s₀ : State) (ts : List Nat) : Prop where
  cfg : s.cfg = s₀.cfg
  counter : s.edgeCounter = min ts.length (2 ^ s₀.cfg.cntW - 1)
  unreached : ∀ k, ts.length ≤ s₀.cfg.skip + k → s.edgeLog.read k = s₀.edgeLog.read k
  skipped : ts.length ≤ s₀.cfg.skip → s.edgeLog = s₀.edgeLog

theorem countsFrom_self (h : s.edgeCounter = 0) : s.CountsFrom s [] :=
  ⟨rfl, h.trans (Nat.zero_min _).symm, fun _ _ => rfl, fun _ => rfl⟩

/-- An EDGE counts itself and writes the slot of the counter, which is at most the number of edges before it, so none
that is unreached behind it. -/
theorem State.CountsFrom.capture (h : s.CountsFrom s₀ ts) : s.capture.CountsFrom s₀ (ts ++ [s.clock]) := by
  obtain ⟨hcfg, hcount, hunreached, hskipped⟩ := h
  have hle : s.edgeCounter ≤ ts.length := hcount ▸ Nat.min_le_left _ _
  have hlen : (ts ++ [s.clock]).length = ts.length + 1 := List.length_append
  refine ⟨hcfg, ?_, fun k hk => ?_, fun hk => ?_⟩
  · rw [State.capture_edgeCounter, hcount, hcfg, satInc_min_ceiling, hlen]
  · have hother : ¬ (k < s.cfg.logDepth ∧ s.cfg.skip + k = s.edgeCounter) := by rw [hcfg]; omega
    rw [State.capture_edgeLog, read_logAfterEdge, if_neg hother]
    exact hunreached k (by omega)
  · rw [State.capture_edgeLog, logAfterEdge_outside s (.inl (by rw [hcfg]; omega))]
    exact hskipped (by omega)

/-- Within a cycle an EDGE counts, and no other rule counts or writes the log. -/
theorem Fires.countsFrom (hcycle : i ≠ .trigger ∧ i ≠ .reset) (hs : s.CountsFrom s₀ ts) (h : Fires s i t) :
    t.CountsFrom s₀ (ts ++ edgeTimes s.cfg.sampleW [i] s.clock) := by
  cases h with
  | trigger => exact absurd rfl hcycle.1
  | reset => exact absurd rfl hcycle.2
  | edge => exact hs.capture
  | waits hi => rwa [edgeTimes_cons_of_command hi, edgeTimes, List.append_nil]
  | decode | nop | read | holds | release | advance =>
    rw [edgeTimes, edgeTimes, List.append_nil]
    exact ⟨hs.cfg, hs.counter, hs.unreached, hs.skipped⟩

/-- A list within a cycle counts its edges from a state with none counted. -/
theorem exists_runRules_countsFrom (hcycle : withinCycle is = true) (h : s.edgeCounter = 0) :
    ∃ t, runRules is s = .next t ∧ t.CountsFrom s (edgeTimes s.cfg.sampleW is s.clock) :=
  exists_runRules_of_edgeTimes (P := fun ts u => u.CountsFrom s ts)
    (fun i hi => Fires.countsFrom (withinCycle_iff.mp hcycle i hi)) (countsFrom_self h)

/-- A reached slot's bit compares the time from the edge before its own to its own (42_bit_decoder.md R151, R138). -/
theorem State.HoldsDeltas.bit_eq (h : s.HoldsDeltas c ts) {k : Nat} (hk : k < c.logDepth)
    (hreached : k + c.skip < ts.length) :
    s.bit k =
      decide (c.threshNs < subMod c.sampleW (ts.getD (k + c.skip) 0) (ts.getD (k + c.skip - 1) 0)) := by
  rw [State.bit, h.slots k hk hreached, h.cfg]

/-- A TRIGGER in READY runs, and the rest of the list runs from the state it leaves. -/
theorem runRules_trigger_cons (hs : s.seqPhase = .ready) : runRules (.trigger :: is) s = runRules is s.arm := by
  rw [runRules, exec_trigger_of_ready hs]

/-- RELEASE, enabled or not, leaves what a capture reads and writes. -/
theorem Fires.sameCapture_of_release (h : Fires s .release t) : SameCapture t s :=
  h.sameCapture_of_other (i := .release) ⟨nofun, nofun⟩ rfl (SameCapture.refl s)

end Machine

open Machine

/-- Settles O22: under `HOST_WAITS` the capture is complete, so the INCOMPLETE check passes. -/
theorem waitingHostIsNeverIncomplete : Obligations.WaitingHostIsNeverIncomplete := fun s hs hwaits =>
  ⟨s.afterDecode, exec_decode_of_ready hs, decodeStatus_ne_incomplete (hwaits rfl)⟩

/-- Settles O27: RESET answers `State.restart`; the period with `rst = 1` moves only the agenda, on which RESET is
then the next turn. -/
theorem resetRestoresEveryRegister : Obligations.ResetRestoresEveryRegister := by
  refine ⟨fun s => ⟨s.restart, exec_reset s, fun _ => rfl, rfl, rfl, rfl, rfl, rfl, rfl, rfl, rfl, rfl, rfl, rfl, rfl,
    rfl, rfl, rfl⟩, fun s p rest h0 ha hp => ?_⟩
  have hperiod : step s = .next { s with agenda := .reset :: rest } := by
    rw [step_of_fetchTurn_wiring h0 ha rfl, runPeriod_of_rst hp]
  exact ⟨_, hperiod, rfl, rfl, step_of_fetchTurn_rule h0 rfl rfl⟩

/-- Settles O35: the block's own turn is an enabled RELEASE, else the byte at a ready port, else none; RELEASE leaves
READY, so a waiting byte is accepted behind it. -/
theorem blockDrainsByItself : Obligations.BlockDrainsByItself := by
  refine ⟨fun _ => step_of_releaseEnabled, fun _ _ _ h0 ha => step_accepts_byte h0 ha,
    fun s h0 ha hr h => step_of_no_ownTurn h0 ha (ownTurn_eq_none hr h), fun s h0 ha hend => ?_,
    fun s b bs h0 ha hr hp => ?_⟩
  · obtain ⟨hport, hready⟩ := port_and_phase_of_ended hend
    exact step_of_no_ownTurn h0 ha (ownTurn_eq_none (releaseEnabled_eq_false s (.inl hready)) (.inr hport))
  · have hrelease : step s = .next s.letGo :=
      (step_of_releaseEnabled h0 ha hr).trans (exec_release_of_enabled hr)
    have hbyte := step_accepts_byte (s := s.letGo) h0 ha rfl hp
    obtain ⟨u, hu⟩ := exists_exec_eq_next (decodeByte s.cfg b) { s.letGo with cmdPort := bs }
    exact ⟨s.letGo, u, hrelease, hbyte.trans hu, rfl, hp, (exec_eq_next_iff_fires.mp hu).cmdPort_eq⟩

/-- Settles O9: TRIGGER leaves the log with no edge counted, and every rule of the cycle keeps the count and the slots
not reached. -/
theorem unreachedSlotsStayOld : Obligations.UnreachedSlotsStayOld := by
  rintro s is n hs hcycle rfl
  obtain ⟨t, hrun, ht⟩ := exists_runRules_countsFrom (s := s.arm) hcycle rfl
  exact ⟨t, (runRules_trigger_cons hs).trans hrun, ht.counter, ht.unreached, ht.skipped⟩

/-- Settles O13: TRIGGER begins the hold, and under the premise every rule of the list keeps it as it began. -/
theorem holdWithoutEdgesKeepsTheTriggerTime : Obligations.HoldWithoutEdgesKeepsTheTriggerTime := by
  intro s is hs hcycle hrelease henv
  obtain ⟨t, hrun⟩ := exists_runRules_eq_next is s.arm
  have halong := alongRun_and_of_forall_mem (R := fun i => (i ≠ .trigger ∧ i ≠ .reset) ∧ i ≠ .release)
    (fun i hi => ⟨withinCycle_iff.mp hcycle i hi, hrelease i hi⟩) henv
  have ht : t.HeldSince s := runRules_keeps_of_alongRun (P := fun u => u.HeldSince s)
    (fun ⟨⟨hi, hne⟩, hp⟩ => Fires.heldSince hi hne hp) (heldSince_arm s) halong hrun
  exact ⟨t, (runRules_trigger_cons hs).trans hrun, ht.edgeCounter, ht.referenceTime, ht.holdStart, ht.pinDir,
    ht.edgeLog⟩

/-- Settles O14: RELEASE counts nothing, the reply is 43 edges, and 43 is below the counter's ceiling. -/
theorem replyCompletesTheCapture : Obligations.ReplyCompletesTheCapture := by
  intro s is _ hzero hwf hwindow hcycle hrelease hreply
  have hbelow : s.cfg.skip + s.cfg.logDepth < 2 ^ s.cfg.cntW := Config.window_lt_two_pow hwf
  obtain ⟨u, hu⟩ := exists_exec_eq_next .release s
  have hsame : SameCapture u s := (exec_eq_next_iff_fires.mp hu).sameCapture_of_release
  obtain ⟨t, hrun, ht⟩ := exists_runRules_countsFrom hcycle (hsame.edgeCounter.trans hzero)
  have hlen : (edgeTimes u.cfg.sampleW is u.clock).length = 43 :=
    length_edgeTimes_of_reply43From hrelease (by simpa [envReply43, reply43From] using hreply) _ _
  have hcount : t.edgeCounter = 43 := by
    rw [ht.counter, hlen, hsame.cfg]
    omega
  refine ⟨t, by rw [runRules, hu]; exact hrun, hcount, (captureComplete_iff t).mpr ?_⟩
  rw [hcount, ht.cfg, hsame.cfg, hwindow]

/-- Settles O20: at the end of the list each slot of the fields holds its edge's delta, and the baseline DECODE stores
the pair packed from their bits. -/
theorem decodeReturnsTheCurrentCycle : Obligations.DecodeReturnsTheCurrentCycle := by
  intro s is ts hs hwf hskip hb hcycle hts hlen
  have hfields : 2 * s.cfg.fieldW + 8 ≤ s.cfg.logDepth := Config.fields_le_logDepth hwf
  obtain ⟨t, hrun, ht⟩ := exists_runRules_of_edgeTimes (P := State.HoldsDeltas s.cfg)
    (fun i hi => Fires.holdsDeltas hskip (Config.window_lt_two_pow hwf) (withinCycle_iff.mp hcycle i hi))
    (holdsDeltas_arm s)
  rw [List.nil_append, State.arm_cfg, State.arm_clock, ← hts] at ht
  refine ⟨t, (runRules_trigger_cons hs).trans hrun, fun hready =>
    ⟨_, exec_decode_baseline hready (ht.cfg ▸ hb), rfl, fun i hi => ?_, fun i hi => ?_⟩⟩
  · rw [← ht.bit_eq (k := i) (by omega) (by omega), ← ht.cfg]
    exact testBit_decodedHumidity (ht.cfg ▸ hi)
  · rw [← ht.bit_eq (k := s.cfg.fieldW + i) (by omega) (by omega), ← ht.cfg]
    exact testBit_pack_bitsFrom t _ _ i (ht.cfg ▸ hi)

end Sys2Proof
end
